-- ==== Sys2Proof/Word.lean ====
section
/-! DEFINITION. The bit-vector types of the unit: a buffer byte, the command word, its operand fields, the response word. -/

namespace Sys2Proof

/-- A byte of the Storage Buffer, "an unsigned 8-bit value" (R10). -/
abbrev Byte := BitVec 8

/-- The command word, 176 bits, bit 175 the most significant (R35). -/
abbrev CommandWord := BitVec 176

/-- The response word, 136 bits (R40). -/
abbrev ResponseWord := BitVec 136

/-- The WIDTH field of a command word: the width itself, 8 bits (R37). -/
abbrev WidthField := BitVec 8

/-- The BITIDX field of a command word: an unscaled bit index, 32 bits (R36). -/
abbrev BitIndex := BitVec 32

/-- The VALUE field of a command word and the RESULT field of a response word, 128 bits (R38, R42). -/
abbrev Value := BitVec 128

end Sys2Proof
end

