-- ==== Sys2Proof/Syntax.lean ====
section
/-! DEFINITION. The commands, the unit's instructions: one constructor per row of spec/opcode_table.json. -/

namespace Sys2Proof

/-- The four commands (R7, R39). Each carries the three operand fields of format C (R35), in the order of PMW's
operand lists `(bit_index, width, value)` (R48), the ignored ones too (DEDUCED, log 9): a decoded command loses no
bit of its word, and a command whose WIDTH is illegal is still that command (R44, R46). -/
inductive Instr where
  /-- BEXT, extract a bit range (R63). -/
  | bext (bitIndex : BitIndex) (width : WidthField) (value : Value)
  /-- BINS, insert a bit range (R67). -/
  | bins (bitIndex : BitIndex) (width : WidthField) (value : Value)
  /-- BTST, test one bit (R65). -/
  | btst (bitIndex : BitIndex) (width : WidthField) (value : Value)
  /-- BSET, write one bit (R70). -/
  | bset (bitIndex : BitIndex) (width : WidthField) (value : Value)
deriving DecidableEq, Repr

end Sys2Proof
end

