-- ==== Sys2Proof/WellFormed.lean ====
section
/-! DEFINITION. Well-formed commands: those whose WIDTH is legal for their opcode (R44). -/

namespace Sys2Proof

/-- A command is well-formed when its WIDTH is legal: 1 to 128 for BEXT and BINS, 1 for BTST and BSET (R37, R44).
Every BITIDX and every VALUE is legal (R36, R38, R45). -/
def Instr.wellFormed : Instr → Bool
  | .bext _ w _ => decide (1 ≤ w.toNat ∧ w.toNat ≤ 128)
  | .bins _ w _ => decide (1 ≤ w.toNat ∧ w.toNat ≤ 128)
  | .btst _ w _ => decide (w.toNat = 1)
  | .bset _ w _ => decide (w.toNat = 1)

end Sys2Proof
end

