-- ==== Sys2Proof/Decode.lean ====
section
/-! DEFINITION. The decoder, total on all 2^176 command words, rejecting by name; then the encoder, written from the
same field table (R35) and opcode map (R39). -/

namespace Sys2Proof

/-- Why a command word is no command. -/
inductive DecodeRejection where
  /-- OPC is none of 0x01 to 0x04 (R43, R94); the other fields are not examined. -/
  | illegalCommand
deriving DecidableEq, Repr

/-- OPC, bits [175:168] (R35). -/
def opcField (cw : CommandWord) : BitVec 8 := cw.extractLsb' 168 8

/-- WIDTH, bits [167:160] (R35, R37). -/
def widthField (cw : CommandWord) : WidthField := cw.extractLsb' 160 8

/-- BITIDX, bits [159:128] (R35, R36). -/
def bitIndexField (cw : CommandWord) : BitIndex := cw.extractLsb' 128 32

/-- VALUE, bits [127:0] (R35, R38). -/
def valueField (cw : CommandWord) : Value := cw.extractLsb' 0 128

/-- OPC of BEXT (R39). -/
def opcBext : BitVec 8 := 0x01#8
/-- OPC of BINS (R39). -/
def opcBins : BitVec 8 := 0x02#8
/-- OPC of BTST (R39). -/
def opcBtst : BitVec 8 := 0x03#8
/-- OPC of BSET (R39). -/
def opcBset : BitVec 8 := 0x04#8

/-- The decoder: "A decoder needs OPC alone to pick the command" (R39), and every other OPC is illegal (R43). WIDTH is
judged by the command's own rule, after the opcode and before the range (R46, R98). -/
def decode (cw : CommandWord) : Except DecodeRejection Instr :=
  if opcField cw = opcBext then .ok (.bext (bitIndexField cw) (widthField cw) (valueField cw))
  else if opcField cw = opcBins then .ok (.bins (bitIndexField cw) (widthField cw) (valueField cw))
  else if opcField cw = opcBtst then .ok (.btst (bitIndexField cw) (widthField cw) (valueField cw))
  else if opcField cw = opcBset then .ok (.bset (bitIndexField cw) (widthField cw) (valueField cw))
  else .error .illegalCommand

/-- Format C (R35): `OPC ‖ WIDTH ‖ BITIDX ‖ VALUE`. -/
def packCommand (opc : BitVec 8) (w : WidthField) (idx : BitIndex) (v : Value) : CommandWord :=
  opc ++ w ++ idx ++ v

/-- The encoder (R35, R39). -/
def encode : Instr → CommandWord
  | .bext idx w v => packCommand opcBext w idx v
  | .bins idx w v => packCommand opcBins w idx v
  | .btst idx w v => packCommand opcBtst w idx v
  | .bset idx w v => packCommand opcBset w idx v

/-- The command word whose bits are the low `nbits` of `w`, bit 0 the least significant, as R35 and the opcode table
number them; the bits above `nbits` are 0. The word is taken whole: the spec defines no serialisation of it (R35;
DEDUCED, log 16). -/
def tableWord (nbits w : Nat) : CommandWord := BitVec.ofNat 176 (w % 2 ^ nbits)

/-- The command the decoder reads from a table word; none where it rejects. -/
def decodeTableWord (nbits w : Nat) : Option Instr :=
  match decode (tableWord nbits w) with
  | .ok i => some i
  | .error _ => none

end Sys2Proof
end

