-- ==== Sys2Proof/Config.lean ====
section
/-! DEFINITION. The configuration of the unit: the range of the one open parameter L (R4) and the L of `State.reset`.
The spec leaves no value free, so there is no opaque constant here. -/

namespace Sys2Proof

/-- The largest buffer length, in bytes (R4: `0 <= L <= 2^29`). -/
def Config.maxLength : Nat := 2 ^ 29

/-- L, the length of the Storage Buffer in bytes (R4). A unit with a longer buffer cannot be instantiated (U13). -/
abbrev Config.BufferLength := Fin (2 ^ 29 + 1)

/-- The L of `State.reset`. DESIGN CHOICE (log 2): the spec gives L no value; with this one every bit index of the
command word lies in the buffer. No statement rests on it. -/
def Config.resetLength : Config.BufferLength := ⟨2 ^ 29, by decide⟩

end Sys2Proof
end

