-- ==== Sys2Proof/Machine/State.lean ====
section
/-! DEFINITION. The state of the unit: the pair (B, FCAUSE) and the configuration L (R19), and beside it the host's
side of the interface as data (R8): the moves the host has still to make and the responses it has received. -/

namespace Sys2Proof.Machine

/-- The bytes of the Storage Buffer that are not zero, as (address, byte) pairs, addresses strictly rising. An address
that is not listed holds `Memory.unlisted`. -/
abbrev Memory := List Host.Cell

/-- The Storage Buffer B: L bytes, the length fixed at instantiation and never changed (R4, R10). -/
structure Buffer where
  /-- L, in bytes (log 1). -/
  len : Config.BufferLength
  /-- The bytes of B in canonical form (log 19). -/
  bytes : Memory
deriving DecidableEq, Repr

/-- The response to one executed command (R40). -/
structure Response where
  /-- STATUS, bits [135:128] (R41). -/
  status : BitVec 8
  /-- RESULT, bits [127:0] (R42). -/
  result : Value
deriving DecidableEq, Repr

/-- What the host can do to the unit (R8, R9): present a command word, or apply reset. Reading the buffer or FCAUSE
changes nothing and is a view of the state (`State.viewByte`, `State.faultView`). -/
inductive HostMove where
  /-- The host presents this command word. -/
  | command (cw : CommandWord)
  /-- The host applies reset (R107). -/
  | reset
deriving DecidableEq, Repr

/-- The three faults the unit raises (R93). Raising one is a NEXT state (`raiseFault`, R99), not an end of the run. -/
inductive FaultCause where
  /-- `bit_index + w > 8*L` (R95). -/
  | boundsViolation
  /-- WIDTH outside what the command supports (R96). -/
  | illegalWidth
  /-- OPC outside 0x01 to 0x04 (R94). -/
  | illegalCommand
deriving DecidableEq, Repr

/-- What ends a run of the model. -/
inductive Fault where
  /-- Raised by `Buffer.memRead` and `Buffer.memWrite` for a byte address `>= L`, which does not exist (R29, R30).
  SAFE: the model stops. No command reaches it, because the bounds check comes first (R95; log 8). -/
  | addressOutsideBuffer
deriving DecidableEq, Repr

/-- Why the model gives a command no meaning. -/
inductive Refusal where
  /-- Raised by an arm of `exec` whose command has no meaning yet. SAFE. No arm raises it: all four are modelled. -/
  | notModelled (mnemonic : String)
deriving DecidableEq, Repr

/-- The machine. `buffer` and `fcause` are the spec's whole state, and `buffer.len` its whole configuration (R19);
`inputs` and `responses` are the model's own record of the host's side, which no command reads (R13, R15, R17). -/
structure State where
  /-- B and L (R10, R4). -/
  buffer : Buffer
  /-- FCAUSE, the fault latch (R12). -/
  fcause : BitVec 8
  /-- The moves the host has still to make, the next one first (R15; DESIGN CHOICE, log 3). -/
  inputs : List HostMove
  /-- The responses the host has received, the oldest first (R13; DESIGN CHOICE, log 4). -/
  responses : List Response
deriving DecidableEq, Repr

/-- A unit instantiated with length `L` and reset: every byte zero and FCAUSE 0 (R18, R74). -/
def State.zeroed (L : Config.BufferLength) : State where
  buffer := { len := L, bytes := [] }
  fcause := 0x00#8
  inputs := []
  responses := []

/-- The machine right after reset (R18, R107). The spec gives B and FCAUSE their values; L is `Config.resetLength`
(DESIGN CHOICE, log 2), and the host has presented nothing and received nothing (DESIGN CHOICE, logs 3 and 4). -/
def State.reset : State := State.zeroed Config.resetLength

end Sys2Proof.Machine
end

