-- ==== Sys2Proof/Machine/Operands.lean ====
section
/-! DEFINITION. The operand forms of format C (R35 to R38): one addressing mode, the absolute bit index (R7), the width,
the value and the truth value; the legal widths (R44); the forms in which a result travels (R42, R64). Every operand
is unsigned and becomes a natural number before any arithmetic (R60). -/

namespace Sys2Proof.Machine

/-- `bit_index = zext(BITIDX)`: unsigned, not scaled, not relative to anything (R36). -/
def bitIndexOperand (idx : BitIndex) : Nat := idx.toNat

/-- `w = zext(WIDTH)`: the number itself, not the number minus one (R37). -/
def widthOperand (w : WidthField) : Nat := w.toNat

/-- `value = VALUE`, all 128 bits, unsigned (R38). -/
def valueOperand (v : Value) : Nat := v.toNat

/-- The truth value of BSET, `VALUE[0]`; `VALUE[127:1]` is ignored (R38, R70). -/
def truthOperand (v : Value) : Bool := v.getLsbD 0

/-- The widths BEXT and BINS support, 1 to 128 (R44). -/
def rangeWidthLegal (w : Nat) : Bool := decide (1 ≤ w ∧ w ≤ 128)

/-- The width BTST and BSET support, 1 (R44). -/
def bitWidthLegal (w : Nat) : Bool := decide (w = 1)

/-- `zext_128(r)`: an extracted value in the RESULT field (R42, R63). -/
def numberResult (r : Nat) : Value := BitVec.ofNat 128 r

/-- A truth value in the RESULT field, 1 or 0 (R65). -/
def truthResult (t : Bool) : Value := if t then 1#128 else 0#128

end Sys2Proof.Machine
end

