-- ==== Sys2Proof/Machine/Flags.lean ====
section
/-! DEFINITION. The unit has no flags, condition codes or predicates (R16). Its only status values are the STATUS field
of a response and the sticky latch FCAUSE; this file gives their codes and the packing of the response word. -/

namespace Sys2Proof.Machine

/-- STATUS of a command that succeeds, and FCAUSE of a running unit (R12, R41). -/
def statusOk : BitVec 8 := 0x00#8

/-- The cause code written to FCAUSE and returned in STATUS (R97). -/
def FaultCause.code : FaultCause → BitVec 8
  | .boundsViolation => 0x01#8
  | .illegalWidth => 0x02#8
  | .illegalCommand => 0x03#8

/-- Halted: `FCAUSE != 0` (R100). -/
def State.halted (s : State) : Bool := s.fcause != statusOk

/-- A legal value of FCAUSE: 0x00 to 0x03 (R12). -/
def fcauseLegal (c : BitVec 8) : Bool := decide (c.toNat ≤ 3)

/-- The response word `STATUS ‖ RESULT`, 136 bits (R40). -/
def Response.word (r : Response) : ResponseWord := r.status ++ r.result

end Sys2Proof.Machine
end

