-- ==== Sys2Proof/Machine/Ops.lean ====
section
/-! DEFINITION. The shared operations: the Storage Buffer's bytes, the response, raising a fault (R99), reset (R107), the
host's views (R8), and the frame every command runs in (R46). There is no return from a fault (R101). -/

namespace Sys2Proof.Machine

/-! ### The bytes of the buffer -/

/-- What an unlisted address reads as: 0x00, the reset contents of every byte (R18). -/
abbrev Memory.unlisted : Byte := 0x00#8

/-- The byte at address `a`. -/
def Memory.read : Memory → Nat → Byte
  | [], _ => Memory.unlisted
  | (a, b) :: rest, x => if x = a then b else Memory.read rest x

/-- Write byte `v` at address `x`, keeping the canonical form: writing `Memory.unlisted` removes the entry. -/
def Memory.write : Memory → Nat → Byte → Memory
  | [], x, v => if v = Memory.unlisted then [] else [(x, v)]
  | (a, b) :: rest, x, v =>
    if x < a then (if v = Memory.unlisted then (a, b) :: rest else (x, v) :: (a, b) :: rest)
    else if x = a then (if v = Memory.unlisted then rest else (x, v) :: rest)
    else (a, b) :: Memory.write rest x v

/-- The canonical form from address `lo` up to (not including) `hi`: addresses strictly rising, none listed with the
unlisted byte. -/
def Memory.wfBetween (lo hi : Nat) : Memory → Bool
  | [] => true
  | (a, b) :: rest =>
    decide (lo ≤ a) && decide (a < hi) && decide (b ≠ Memory.unlisted) && Memory.wfBetween (a + 1) hi rest

/-- The canonical form of the bytes of a buffer of `L` bytes; every listed address is `< L` (R10, R29). -/
def Memory.wf (L : Nat) (m : Memory) : Bool := Memory.wfBetween 0 L m

/-- The canonical form of a buffer. -/
def Buffer.wf (B : Buffer) : Bool := Memory.wf B.len.val B.bytes

/-- `8*L`, the number of addressable bits (R4, R20). -/
def Buffer.bits (B : Buffer) : Nat := 8 * B.len.val

/-- `B[a]`. -/
def Buffer.byteAt (B : Buffer) (a : Nat) : Byte := Memory.read B.bytes a

/-- Bit index `j`: bit `j % 8`, counted from the least-significant bit, of `B[j / 8]` (R21). -/
def Buffer.bitAt (B : Buffer) (j : Nat) : Bool := (B.byteAt (j / 8)).toNat.testBit (j % 8)

/-- `MemRead(a, 1)`: `B[a]`; requires `a < L` (00_scope.md section 5). -/
def Buffer.memRead (B : Buffer) (a : Nat) : Except Fault Byte :=
  if a < B.len.val then .ok (B.byteAt a) else .error .addressOutsideBuffer

/-- `MemWrite(a, 1, v)`: `B[a] <- v`; requires `a < L`; changes no other byte (00_scope.md section 5). -/
def Buffer.memWrite (B : Buffer) (a : Nat) (v : Byte) : Except Fault Buffer :=
  if a < B.len.val then .ok { B with bytes := Memory.write B.bytes a v } else .error .addressOutsideBuffer

/-! ### Response, fault entry, reset -/

/-- `respond(status, result)`: one response word for the executed command (R40). -/
def respond (status : BitVec 8) (result : Value) (s : State) : State :=
  { s with responses := s.responses ++ [{ status := status, result := result }] }

/-- `raise Fault(code)` (R99): B is unchanged, `FCAUSE <- code`, the response is `STATUS = code, RESULT = 0`, and the
unit is halted from then on (`State.halted`). -/
def raiseFault (cause : FaultCause) (s : State) : State :=
  respond cause.code 0#128 { s with fcause := cause.code }

/-- Reset (R107): every byte of B and FCAUSE to zero; L unchanged; no response word. -/
def applyReset (s : State) : State :=
  { s with buffer := { s.buffer with bytes := [] }, fcause := 0x00#8 }

/-! ### What the host presents and what it sees (R8) -/

/-- The host's next move, and the state in which it has been made; none when the host presents nothing. -/
def nextMove (s : State) : Option (HostMove × State) :=
  match s.inputs with
  | [] => none
  | m :: rest => some (m, { s with inputs := rest })

/-- Put a command word where the next step takes it: in front of the host's other moves. -/
def presentNext (cw : CommandWord) (s : State) : State :=
  { s with inputs := .command cw :: s.inputs }

/-- The buffer view at one address (R8, R32 a). -/
def State.viewByte (s : State) (a : Nat) : Option Byte :=
  if a < s.buffer.len.val then some (s.buffer.byteAt a) else none

/-- The whole buffer view `B[0 .. L-1]`, lowest address first (R8). -/
def State.bufferView (s : State) : List Byte := (List.range s.buffer.len.val).map s.buffer.byteAt

/-- The fault view: FCAUSE (R8, R12). -/
def State.faultView (s : State) : BitVec 8 := s.fcause

/-! ### The frame of a command -/

/-- How every command runs (R46, R63, R65, R67, R70): a halted unit executes nothing and answers nothing (R100); an
illegal width faults before the range is judged (R98); a range past the last bit of the buffer faults before any byte
is accessed, the sum taken on naturals (R95); otherwise the command has its effect. -/
def runCommand (widthLegal : Bool) (i w : Nat) (effect : Host.Outcome State Fault Refusal) (s : State) :
    Host.Outcome State Fault Refusal :=
  if s.halted then .next s
  else if widthLegal = false then .next (raiseFault .illegalWidth s)
  else if i + w > s.buffer.bits then .next (raiseFault .boundsViolation s)
  else effect

/-- Answer the value a read gave: STATUS 0, the state otherwise unchanged (R63, R65). -/
def answerValue (r : Except Fault Value) (s : State) : Host.Outcome State Fault Refusal :=
  match r with
  | .ok v => .next (respond statusOk v s)
  | .error f => .fault f

/-- Take the buffer a write gave: STATUS 0 and RESULT 0 (R42, R67, R70). -/
def takeBuffer (b : Except Fault Buffer) (s : State) : Host.Outcome State Fault Refusal :=
  match b with
  | .ok B => .next (respond statusOk 0#128 { s with buffer := B })
  | .error f => .fault f

end Sys2Proof.Machine
end

