-- ==== Sys2Proof/Machine/ShiftMask.lean ====
section
/-! DEFINITION. The multi-byte bit-shift and mask unit (40_shift_mask_unit.md): the chunk walk, the masks, the single-byte
primitives, and `extract` and `insert`. Data are natural numbers until they are stored (R60). -/

namespace Sys2Proof.Machine

/-- A chunk tuple `(byte, off, c, shift)` (R50): `c` bits of byte `byte` from bit `off` up, which are the bits from
`shift` up of the field. -/
structure Chunk where
  byte : Nat
  off : Nat
  c : Nat
  shift : Nat
deriving DecidableEq, Repr

/-- The loop of R50 from bit index `i` with `remaining` bits to go. `fuel` bounds the iterations: each takes at least
one bit, so `remaining` of them suffice (R51 h). -/
def walk : (fuel i remaining shift : Nat) → List Chunk
  | 0, _, _, _ => []
  | fuel + 1, i, remaining, shift =>
    let byte := i / 8
    let off := i % 8
    let c := min (8 - off) remaining
    { byte := byte, off := off, c := c, shift := shift } ::
      (if remaining - c = 0 then [] else walk fuel (i + c) (remaining - c) (shift + c))

/-- `chunks(i, w)` (R50), for `w >= 1`. At `w = 0`, which the rule does not define and no command reaches, the list is
empty (DESIGN CHOICE, log 15). -/
def chunks (i w : Nat) : List Chunk := walk w i w 0

/-- The number of bytes a command with operands `(i, w)` touches (R25, R118). -/
def bytesTouched (i w : Nat) : Nat := (i % 8 + w + 7) / 8

/-- `LOWMASK(c) = (1 << c) - 1`, on naturals: `LOWMASK(8) = 0xFF` (R52). -/
def lowMask (c : Nat) : Nat := (1 <<< c) - 1

/-- `not8(a) = 255 - a`, the 8-bit complement (00_scope.md section 5). -/
def not8 (a : Nat) : Nat := 255 - a

/-- `extract_chunk(b, off, c) = (b >> off) & LOWMASK(c)` (R53). -/
def extractChunk (b : Byte) (off c : Nat) : Nat := (b.toNat >>> off) &&& lowMask c

/-- The byte mask of a chunk, `m = LOWMASK(c) << off` (R54). -/
def chunkMask (off c : Nat) : Nat := lowMask c <<< off

/-- `insert_chunk(b, off, c, v) = (b & not8(m)) | ((v & LOWMASK(c)) << off)` (R55). -/
def insertChunk (b : Byte) (off c v : Nat) : Byte :=
  BitVec.ofNat 8 ((b.toNat &&& not8 (chunkMask off c)) ||| ((v &&& lowMask c) <<< off))

/-- The loop of `extract` over the chunks still to visit, `value` being the accumulator (R56, R58). -/
def extractWalk (B : Buffer) : List Chunk → Nat → Except Fault Nat
  | [], value => .ok value
  | k :: rest, value =>
    match B.memRead k.byte with
    | .error f => .error f
    | .ok b => extractWalk B rest (value ||| (extractChunk b k.off k.c <<< k.shift))

/-- `extract(B, i, w)` of the spec (R58). -/
def extractField (B : Buffer) (i w : Nat) : Except Fault Nat := extractWalk B (chunks i w) 0

/-- The loop of `insert` over the chunks still to visit: each takes the low `c` bits of the remaining value and drops
them (R57, R59). -/
def insertWalk : List Chunk → Buffer → Nat → Except Fault Buffer
  | [], B, _ => .ok B
  | k :: rest, B, value =>
    match B.memRead k.byte with
    | .error f => .error f
    | .ok old =>
      match B.memWrite k.byte (insertChunk old k.off k.c value) with
      | .error f => .error f
      | .ok B' => insertWalk rest B' (value >>> k.c)

/-- `insert(B, i, w, v)` of the spec (R59): the new buffer. -/
def insertField (B : Buffer) (i w v : Nat) : Except Fault Buffer := insertWalk (chunks i w) B v

end Sys2Proof.Machine
end

