-- ==== Sys2Proof/Machine/Extract.lean ====
section
/-! DEFINITION. The bit-range extractor (41_extract.md): BEXT and BTST. -/

namespace Sys2Proof.Machine

/-- BEXT (R63): the field of `w` bits at `bit_index`, zero-extended. VALUE is ignored. -/
def execBext (idx : BitIndex) (width : WidthField) (_value : Value) (s : State) :
    Host.Outcome State Fault Refusal :=
  runCommand (rangeWidthLegal (widthOperand width)) (bitIndexOperand idx) (widthOperand width)
    (answerValue ((extractField s.buffer (bitIndexOperand idx) (widthOperand width)).map numberResult) s) s

/-- The Boolean read (R65): `((MemRead(byte, 1) >> off) & 1) != 0`. -/
def testBitOf (B : Buffer) (i : Nat) : Except Fault Bool :=
  (B.memRead (i / 8)).map fun b => ((b.toNat >>> (i % 8)) &&& 1) != 0

/-- BTST (R65): one bit as a truth value. VALUE is ignored. -/
def execBtst (idx : BitIndex) (width : WidthField) (_value : Value) (s : State) :
    Host.Outcome State Fault Refusal :=
  runCommand (bitWidthLegal (widthOperand width)) (bitIndexOperand idx) 1
    (answerValue ((testBitOf s.buffer (bitIndexOperand idx)).map truthResult) s) s

end Sys2Proof.Machine
end

