-- ==== Sys2Proof/Machine/Insert.lean ====
section
/-! DEFINITION. The bit-range inserter (42_insert.md): BINS and BSET. -/

namespace Sys2Proof.Machine

/-- BINS (R67): the field of `w` bits at `bit_index` takes the low `w` bits of VALUE; an oversized value is masked
(R68; the spec's own decision D12, log 10). -/
def execBins (idx : BitIndex) (width : WidthField) (value : Value) (s : State) :
    Host.Outcome State Fault Refusal :=
  runCommand (rangeWidthLegal (widthOperand width)) (bitIndexOperand idx) (widthOperand width)
    (takeBuffer (insertField s.buffer (bitIndexOperand idx) (widthOperand width) (valueOperand value)) s) s

/-- The Boolean write (R70): `old | (1 << off)` to set, `old & not8(1 << off)` to clear. -/
def writeBit (B : Buffer) (i : Nat) (t : Bool) : Except Fault Buffer :=
  match B.memRead (i / 8) with
  | .error f => .error f
  | .ok old =>
    B.memWrite (i / 8)
      (BitVec.ofNat 8 (if t then old.toNat ||| (1 <<< (i % 8)) else old.toNat &&& not8 (1 <<< (i % 8))))

/-- BSET (R70): one bit takes the truth value `VALUE[0]`. -/
def execBset (idx : BitIndex) (width : WidthField) (value : Value) (s : State) :
    Host.Outcome State Fault Refusal :=
  runCommand (bitWidthLegal (widthOperand width)) (bitIndexOperand idx) 1
    (takeBuffer (writeBit s.buffer (bitIndexOperand idx) (truthOperand value)) s) s

end Sys2Proof.Machine
end

