-- ==== Sys2Proof/Machine/Dispatch.lean ====
section
/-! DEFINITION. The dispatch from a command to its meaning, one arm per constructor of Instr. -/

namespace Sys2Proof.Machine

def exec (i : Instr) (s : State) : Host.Outcome State Fault Refusal :=
  match i with
  | .bext idx w v => Sys2Proof.Machine.execBext idx w v s
  | .bins idx w v => Sys2Proof.Machine.execBins idx w v s
  | .btst idx w v => Sys2Proof.Machine.execBtst idx w v s
  | .bset idx w v => Sys2Proof.Machine.execBset idx w v s

end Sys2Proof.Machine
end

