-- ==== Sys2Proof/Machine/Present.lean ====
section
/-! DEFINITION. What one move of the host does to the unit: a presented command word (R46, R100), or reset (R107). -/

namespace Sys2Proof.Machine

/-- A command word presented to the unit: a halted unit does not decode it and nothing happens (R19, R100; log 6); an
illegal opcode raises IllegalCommand (R43, R94); otherwise the command executes (R46). -/
def presentCommand (cw : CommandWord) (s : State) : Host.Outcome State Fault Refusal :=
  if s.halted then .next s
  else
    match decode cw with
    | .error .illegalCommand => .next (raiseFault .illegalCommand s)
    | .ok i => exec i s

/-- One move of the host (R9). -/
def makeMove (m : HostMove) (s : State) : Host.Outcome State Fault Refusal :=
  match m with
  | .command cw => presentCommand cw s
  | .reset => .next (applyReset s)

end Sys2Proof.Machine
end

