-- ==== Sys2Proof/Machine/Step.lean ====
section
/-! DEFINITION. One step of the machine: the host's next move, made to completion before the next (R19, R116). -/

namespace Sys2Proof.Machine

/-- One step (R19): the host's next move. When the host presents nothing, nothing happens (DESIGN CHOICE, log 5). -/
def step (s : State) : Host.Outcome State Fault Refusal :=
  match nextMove s with
  | none => .next s
  | some (m, s') => makeMove m s'

/-- `s` with the command word of a table row presented next (log 16): the very next step takes exactly it. This stands
for the host's presenting a program (log 3): the unit fetches nothing (R15). -/
def State.withFetchWord (s : State) (nbits w : Nat) : State := presentNext (tableWord nbits w) s

end Sys2Proof.Machine
end

