-- ==== Sys2Proof/Machine/Assembler.lean ====
section
/-! DEFINITION. The textual form of commands and responses (R48) and the pseudo-commands (R49): host-side, no hardware. -/

namespace Sys2Proof.Machine

/-- A line of assembly: the four commands (R48), then the six pseudo-commands (R49). -/
inductive Asm where
  | bext (idx w : Nat)
  | bins (idx w v : Nat)
  | btst (idx : Nat)
  | bset (idx b : Nat)
  | read (idx w : Nat)
  | getField (idx w : Nat)
  | write (idx w v : Nat)
  | setField (idx w v : Nat)
  | getBool (idx : Nat)
  | setBool (idx b : Nat)
deriving DecidableEq, Repr

/-- A pseudo-command expands to its command; a command is left as it is (R49). -/
def Asm.expand : Asm → Asm
  | .read idx w => .bext idx w
  | .getField idx w => .bext idx w
  | .write idx w v => .bins idx w v
  | .setField idx w v => .bins idx w v
  | .getBool idx => .btst idx
  | .setBool idx b => .bset idx b
  | a => a

/-- Assemble one line (R48). Operands that their field cannot hold have no command word; every ignored bit is 0. -/
def Asm.assemble (a : Asm) : Option Instr :=
  match a.expand with
  | .bext idx w => if idx < 2 ^ 32 ∧ w < 2 ^ 8 then some (.bext (BitVec.ofNat 32 idx) (BitVec.ofNat 8 w) 0#128) else none
  | .bins idx w v =>
    if idx < 2 ^ 32 ∧ w < 2 ^ 8 ∧ v < 2 ^ 128 then
      some (.bins (BitVec.ofNat 32 idx) (BitVec.ofNat 8 w) (BitVec.ofNat 128 v))
    else none
  | .btst idx => if idx < 2 ^ 32 then some (.btst (BitVec.ofNat 32 idx) 1#8 0#128) else none
  | .bset idx b =>
    if idx < 2 ^ 32 ∧ b < 2 then some (.bset (BitVec.ofNat 32 idx) 1#8 (BitVec.ofNat 128 b)) else none
  | _ => none

/-! ### Text -/

/-- The value of a digit character, hexadecimal in either case. -/
def digitValue (ch : Char) : Option Nat :=
  if 48 ≤ ch.toNat ∧ ch.toNat ≤ 57 then some (ch.toNat - 48)
  else if 65 ≤ ch.toNat ∧ ch.toNat ≤ 70 then some (ch.toNat - 55)
  else if 97 ≤ ch.toNat ∧ ch.toNat ≤ 102 then some (ch.toNat - 87)
  else none

/-- The digits of a numeral in `base`, most significant first, onto the value read so far. -/
def digitsFrom (base acc : Nat) : List Char → Option Nat
  | [] => some acc
  | ch :: rest =>
    match digitValue ch with
    | some d => if d < base then digitsFrom base (acc * base + d) rest else none
    | none => none

/-- A numeral: decimal, `0x` hexadecimal or `0b` binary (R48). -/
def numeral : List Char → Option Nat
  | [] => none
  | '0' :: 'x' :: d :: ds => digitsFrom 16 0 (d :: ds)
  | '0' :: 'b' :: d :: ds => digitsFrom 2 0 (d :: ds)
  | d :: ds => digitsFrom 10 0 (d :: ds)

/-- Split at every occurrence of `sep`. -/
def splitAtChar (sep : Char) : List Char → List (List Char)
  | [] => [[]]
  | ch :: rest =>
    match splitAtChar sep rest with
    | [] => [[ch]]
    | w :: ws => if ch = sep then [] :: w :: ws else (ch :: w) :: ws

/-- Drop the spaces of a text. -/
def dropSpaces (t : List Char) : List Char := t.filter (· ≠ ' ')

/-- The operands of a line, each a numeral; none if one is not. -/
def numerals : List (List Char) → Option (List Nat)
  | [] => some []
  | t :: ts =>
    match numeral t, numerals ts with
    | some n, some ns => some (n :: ns)
    | _, _ => none

/-- The line with this mnemonic and these operands (R48, R49). -/
def lineOf (mnemonic : List Char) (operands : List Nat) : Option Asm :=
  match operands with
  | [idx] =>
    if mnemonic = ['B', 'T', 'S', 'T'] then some (.btst idx)
    else if mnemonic = ['g', 'e', 't', '_', 'b', 'o', 'o', 'l'] then some (.getBool idx)
    else none
  | [idx, n] =>
    if mnemonic = ['B', 'E', 'X', 'T'] then some (.bext idx n)
    else if mnemonic = ['B', 'S', 'E', 'T'] then some (.bset idx n)
    else if mnemonic = ['r', 'e', 'a', 'd'] then some (.read idx n)
    else if mnemonic = ['g', 'e', 't', '_', 'f', 'i', 'e', 'l', 'd'] then some (.getField idx n)
    else if mnemonic = ['s', 'e', 't', '_', 'b', 'o', 'o', 'l'] then some (.setBool idx n)
    else none
  | [idx, w, v] =>
    if mnemonic = ['B', 'I', 'N', 'S'] then some (.bins idx w v)
    else if mnemonic = ['w', 'r', 'i', 't', 'e'] then some (.write idx w v)
    else if mnemonic = ['s', 'e', 't', '_', 'f', 'i', 'e', 'l', 'd'] then some (.setField idx w v)
    else none
  | _ => none

/-- Parse a line: the mnemonic, one space, the operands between commas. Every space after the mnemonic is dropped, around
an operand and inside one: `BEXT 1 3, 5` reads as `BEXT 13, 5` (DESIGN CHOICE, log 17). -/
def parseLine (text : List Char) : Option Asm :=
  match splitAtChar ' ' text with
  | [] => none
  | mnemonic :: rest =>
    match numerals (splitAtChar ',' (dropSpaces rest.flatten)) with
    | some ns => lineOf mnemonic ns
    | none => none

/-- How a response is written: `OK r`, or `FAULT` and the cause (R48). -/
inductive ResponseText where
  | ok (r : Nat)
  | fault (cause : FaultCause)
deriving DecidableEq, Repr

/-- The text of a response; a STATUS that no command produces (R41) has none. -/
def Response.text (r : Response) : Option ResponseText :=
  if r.status = statusOk then some (.ok r.result.toNat)
  else if r.status = FaultCause.boundsViolation.code then some (.fault .boundsViolation)
  else if r.status = FaultCause.illegalWidth.code then some (.fault .illegalWidth)
  else if r.status = FaultCause.illegalCommand.code then some (.fault .illegalCommand)
  else none

end Sys2Proof.Machine
end

