-- ==== Sys2Proof/Machine/Construction.lean ====
section
/-! DEFINITION. The primitives of the construction interface (43_construction_interface.md): host-side functions evaluated
before the unit is instantiated or when the operands of a command are computed. None runs on the datapath, none touches
FCAUSE (R106). Field types and the boot order are in Boot.lean. -/

namespace Sys2Proof.Machine

/-- The `ok/err` of the validation primitives (R77, R78). -/
inductive Check where
  | ok
  | err
deriving DecidableEq, Repr

/-- Why `new_zeroed` is refused (R77, R106). -/
inductive ConstructionError where
  /-- The total width is not a multiple of 8 (R77; U6). -/
  | totalNotMultipleOf8
  /-- The buffer would be longer than 2^29 bytes (R4; U13). -/
  | bufferTooLong
deriving DecidableEq, Repr

/-- A field width: an integer in `[1,128]` (R5). -/
abbrev FieldWidth := { w : Nat // 1 ≤ w ∧ w ≤ 128 }

/-- `container(w)`, the ladder of value types (R76); undefined outside `[1,128]`, where it has no value. -/
def container (w : Nat) : Option Nat :=
  if w = 0 then none
  else if w ≤ 8 then some 8
  else if w ≤ 16 then some 16
  else if w ≤ 32 then some 32
  else if w ≤ 64 then some 64
  else if w ≤ 128 then some 128
  else none

/-- PMW's typed value of a BEXT result, `RESULT[container(w)-1:0]` (R64). -/
def typedValue (w : Nat) (result : Value) : Option Nat :=
  (container w).map fun c => result.toNat % 2 ^ c

/-- `validate_total_multiple_of_8` (R77). -/
def validateTotalMultipleOf8 (totalBits : Nat) : Check :=
  if totalBits % 8 = 0 then .ok else .err

/-- `validate_discriminant_range` (R78). R78 has widths in `[1,128]` only; at any other width this answers by the same
formula (DESIGN CHOICE, log 13). -/
def validateDiscriminantRange (discriminant width : Nat) : Check :=
  if discriminant < 2 ^ width then .ok else .err

/-- `new_zeroed(total_bits)` (R74): instantiation with `L = total_bits / 8`, and reset. A total the spec gives no buffer
for is refused by name (U6, U13; log 13). -/
def newZeroed (totalBits : Nat) : Except ConstructionError State :=
  match validateTotalMultipleOf8 totalBits with
  | .err => .error .totalNotMultipleOf8
  | .ok =>
    if h : totalBits / 8 < 2 ^ 29 + 1 then .ok (State.zeroed ⟨totalBits / 8, h⟩) else .error .bufferTooLong

/-- Running sums from `start`: the offset of each field of these widths, without padding (R79). -/
def offsetsFrom (start : Nat) : List Nat → List Nat
  | [] => []
  | w :: ws => start :: offsetsFrom (start + w) ws

/-- The starting bit index of each field (R79). -/
def offsets (widths : List Nat) : List Nat := offsetsFrom 0 widths

/-- `N`, the sum of all field widths (R79). -/
def totalBits : List Nat → Nat
  | [] => 0
  | w :: ws => w + totalBits ws

/-- The `(bit_index, width)` of each declared field (R79). -/
def placements (widths : List Nat) : List (Nat × Nat) := (offsets widths).zip widths

end Sys2Proof.Machine
end

