-- ==== Sys2Proof/Machine/Specifier.lean ====
section
/-! DEFINITION. Symbol Specifiers (44_symbol_layer.md, R84, R85) and their validation (R90, R92): declaration-time facts of
the host, no state of anything. -/

namespace Sys2Proof.Machine

/-- The two flavours of a specifier (R84, R85); the open one declares its width. -/
inductive SpecifierKind where
  | exhaustive
  | openMapping (width : Nat)
deriving DecidableEq, Repr

/-- A Symbol Specifier: a finite ordered list of (symbol, discriminant) pairs plus a bit width (R84). How a symbol is
represented is not in the source (N13b): `σ` is any type. -/
structure SymbolSpecifier (σ : Type) where
  kind : SpecifierKind
  table : List (σ × Nat)
deriving DecidableEq, Repr

/-- Why a specifier is refused at construction (R90, R92). -/
inductive SpecifierError (σ : Type) where
  /-- The variant count of an exhaustive specifier is no power of two (R90). -/
  | countNotPowerOfTwo
  /-- The width is outside `[1,128]`; so is that of a one-variant exhaustive specifier (R92 b, U8). -/
  | widthUnsupported
  /-- This symbol's discriminant is not `< 2^width` (R90). -/
  | discriminantOutOfRange (offender : σ)
  /-- Two symbols share a discriminant (R92 a, U7). -/
  | duplicateDiscriminant
deriving DecidableEq, Repr

/-- `ceil(log2 n)`, for `n >= 1` (R85). At `n = 0`, the count of an exhaustive specifier with no variants, the spec gives
it no value; here it is 0 (DESIGN CHOICE, log 14). -/
def ceilLog2 (n : Nat) : Nat := if n ≤ 1 then 0 else Nat.log2 (n - 1) + 1

/-- The width of a specifier (R85). -/
def SymbolSpecifier.width {σ : Type} (p : SymbolSpecifier σ) : Nat :=
  match p.kind with
  | .exhaustive => ceilLog2 p.table.length
  | .openMapping w => w

/-- Whether a variant count is a power of two (R85, R90). -/
def powerOfTwo (n : Nat) : Bool := decide (2 ^ ceilLog2 n = n)

/-- No discriminant occurs twice (R92 a). -/
def distinctNats : List Nat → Bool
  | [] => true
  | d :: ds => !ds.contains d && distinctNats ds

/-- The first symbol whose discriminant fails `validate_discriminant_range` (R90). -/
def firstOutOfRange {σ : Type} (width : Nat) : List (σ × Nat) → Option σ
  | [] => none
  | (x, d) :: rest =>
    match validateDiscriminantRange d width with
    | .err => some x
    | .ok => firstOutOfRange width rest

/-- Construction-time validation, once, not per call (R90, R92). The order of the checks is the model's, and so is that a
symbol may be listed twice (DESIGN CHOICE, log 14). -/
def SymbolSpecifier.validate {σ : Type} (p : SymbolSpecifier σ) : Except (SpecifierError σ) Unit :=
  if p.kind = .exhaustive ∧ powerOfTwo p.table.length = false then .error .countNotPowerOfTwo
  else if p.width = 0 ∨ 128 < p.width then .error .widthUnsupported
  else
    match firstOutOfRange p.width p.table with
    | some x => .error (.discriminantOutOfRange x)
    | none => if distinctNats (p.table.map Prod.snd) then .ok () else .error .duplicateDiscriminant

/-- A specifier that passed its validation; the only ones a layout is built from (R90, R110 step 2). -/
abbrev ValidSpecifier (σ : Type) := { p : SymbolSpecifier σ // p.validate = .ok () }

/-- A validated specifier has a width the codec supports (R85, R92 b). -/
theorem SymbolSpecifier.width_of_validate {σ : Type} {p : SymbolSpecifier σ} (h : p.validate = .ok ()) :
    1 ≤ p.width ∧ p.width ≤ 128 := by
  unfold SymbolSpecifier.validate at h
  split at h
  · cases h
  · split at h
    · cases h
    · omega

end Sys2Proof.Machine
end

