-- ==== Sys2Proof/Machine/Boot.lean ====
section
/-! DEFINITION. Field types and their widths (R75), and the host's boot duties (R110): from what a front end declares to a
unit and the placements of its fields, or to an error before any unit exists (R106). -/

namespace Sys2Proof.Machine

/-- A field type (R75): a numeric field of `w` bits, a Boolean field (R81), or a symbol field of a validated specifier
(R85). The catalogue of names is not in the source (N14): a type is known by its kind and what gives it its width. -/
inductive FieldType (σ : Type) where
  | numeric (width : FieldWidth)
  | boolean
  | symbol (specifier : ValidSpecifier σ)
deriving DecidableEq, Repr

/-- `field_width(type)`, always in `[1,128]` (R75, R81, R85). -/
def fieldWidth {σ : Type} : FieldType σ → FieldWidth
  | .numeric w => w
  | .boolean => ⟨1, by decide⟩
  | .symbol p => ⟨p.val.width, SymbolSpecifier.width_of_validate p.property⟩

/-- A field as a front end declares it, before any check: the width of a numeric field may be any number, and the
specifier of a symbol field has not been validated. How a declaration states its width is the front end's (R3): here each
field has one width, so a "declared field width mismatch" (R82 d, R106) cannot be written (DESIGN CHOICE, log 22). -/
inductive FieldDeclaration (σ : Type) where
  | numeric (width : Nat)
  | boolean
  | symbol (specifier : SymbolSpecifier σ)
deriving DecidableEq, Repr

/-- The width a declaration asks for (R75). -/
def declaredWidth {σ : Type} : FieldDeclaration σ → Nat
  | .numeric w => w
  | .boolean => 1
  | .symbol p => p.width

/-- Why a layout is refused before any unit exists (R106, R110; the names are the model's, log 13). -/
inductive LayoutError (σ : Type) where
  /-- Step 1: a width outside `[1,128]` (R5). -/
  | widthUnsupported
  /-- Step 2: the specifier of a symbol field fails its validation (R90). -/
  | specifier (e : SpecifierError σ)
  /-- Steps 3 and 4: no unit of that total width (R77). -/
  | noUnit (e : ConstructionError)
deriving DecidableEq, Repr

/-- The type of a symbol field: a specifier has one exactly when it is valid (R85, R90). -/
def SymbolSpecifier.fieldType {σ : Type} (p : SymbolSpecifier σ) : Except (SpecifierError σ) (FieldType σ) :=
  match h : p.validate with
  | .ok () => .ok (.symbol ⟨p, h⟩)
  | .error e => .error e

/-- The type of a declared field, its width and its specifier checked (R110 steps 1 and 2). -/
def FieldDeclaration.fieldType {σ : Type} : FieldDeclaration σ → Except (LayoutError σ) (FieldType σ)
  | .numeric w => if h : 1 ≤ w ∧ w ≤ 128 then .ok (.numeric ⟨w, h⟩) else .error .widthUnsupported
  | .boolean => .ok .boolean
  | .symbol p =>
    match p.fieldType with
    | .ok t => .ok t
    | .error e => .error (.specifier e)

/-- The types of the declared fields, in their order; the first error if there is one. -/
def fieldTypes {σ : Type} : List (FieldDeclaration σ) → Except (LayoutError σ) (List (FieldType σ))
  | [] => .ok []
  | d :: rest =>
    match d.fieldType, fieldTypes rest with
    | .error e, _ => .error e
    | .ok _, .error e => .error e
    | .ok t, .ok ts => .ok (t :: ts)

/-- The boot duties in their order (R110): (1) every width is supported; (2) every specifier is validated; (3) the total
is checked and (4) the unit is instantiated and reset; (5) the fields are placed. The first error ends it, and then
there is no unit. -/
def boot {σ : Type} (fields : List (FieldDeclaration σ)) : Except (LayoutError σ) (State × List (Nat × Nat)) :=
  if fields.all (fun d => decide (1 ≤ declaredWidth d ∧ declaredWidth d ≤ 128)) then
    match fieldTypes fields with
    | .error e => .error e
    | .ok types =>
      match newZeroed (totalBits (types.map fun t => (fieldWidth t).val)) with
      | .error e => .error (.noUnit e)
      | .ok s => .ok (s, placements (types.map fun t => (fieldWidth t).val))
  else .error .widthUnsupported

end Sys2Proof.Machine
end

