-- ==== Sys2Proof/Machine/Client.lean ====
section
/-! DEFINITION. The host's call interface over the unit: PMW's accessors as calls that present one command and take its
response (R8, R49). Nothing here is hardware. -/

namespace Sys2Proof.Machine

/-- One call: the response the command was given, if any (none from a halted unit, R100), and what became of the unit. -/
structure Call where
  response : Option Response
  outcome : Host.Outcome State Fault Refusal

/-- Present one command and take its response: the one response word that is in `responses` afterwards and was not
there before (R40). -/
def callUnit (i : Instr) (s : State) : Call :=
  match presentCommand (encode i) s with
  | .next t => { response := (t.responses.drop s.responses.length).head?, outcome := .next t }
  | .fault f => { response := none, outcome := .fault f }
  | .refused r => { response := none, outcome := .refused r }

/-- `read` and `get_field` (R49). -/
def getField (idx : BitIndex) (w : WidthField) (s : State) : Call := callUnit (.bext idx w 0#128) s

/-- `write` and `set_field` (R49). -/
def setField (idx : BitIndex) (w : WidthField) (v : Value) (s : State) : Call := callUnit (.bins idx w v) s

/-- `get_bool` (R49). -/
def getBool (idx : BitIndex) (s : State) : Call := callUnit (.btst idx 1#8 0#128) s

/-- `set_bool` (R49). -/
def setBool (idx : BitIndex) (b : Bool) (s : State) : Call := callUnit (.bset idx 1#8 (truthResult b)) s

end Sys2Proof.Machine
end

