-- ==== Sys2Proof/Machine/SymbolLayer.lean ====
section
/-! DEFINITION. The symbol layer (44_symbol_layer.md): a client of the unit, not hardware, kept for completeness. It reaches
the buffer only through BEXT and BINS and adds no state (R91). -/

namespace Sys2Proof.Machine

/-- A raw value no discriminant of an open specifier matches, with the width it was read at (R86). -/
structure Unrecognized where
  width : Nat
  raw : Nat
deriving DecidableEq, Repr

/-- The first symbol bound to a discriminant; in a validated table the only one (R92 a). -/
def symbolOf {σ : Type} (d : Nat) : List (σ × Nat) → Option σ
  | [] => none
  | (x, e) :: rest => if e = d then some x else symbolOf d rest

/-- The discriminant bound to a symbol (R89). Validation judges discriminants only: of a symbol listed twice the first
discriminant is taken (DESIGN CHOICE, log 14). -/
def discriminantOf {σ : Type} [DecidableEq σ] (x : σ) : List (σ × Nat) → Option Nat
  | [] => none
  | (y, d) :: rest => if y = x then some d else discriminantOf x rest

/-- What a decode answers. -/
inductive SymbolAnswer (σ : Type) where
  /-- The symbol bound to the value read. -/
  | symbol (x : σ)
  /-- An open specifier has no such discriminant (R86, R88); not an error (R105). -/
  | unrecognized (u : Unrecognized)
  /-- The table of an exhaustive decode has no such discriminant: unreachable for a validated exhaustive one (R87);
  refused (U4, log 14). -/
  | noMatch
  /-- The BEXT underneath faulted, with this STATUS: a fault of the whole call (R87, R88). -/
  | unitFault (status : BitVec 8)
  /-- The unit gave no response: it is halted (R100). -/
  | noResponse
deriving DecidableEq, Repr

/-- A client width as a WIDTH operand; one that 8 bits do not hold becomes 0, which the unit refuses (R44). -/
def widthAsOperand (w : Nat) : WidthField := if w < 256 then BitVec.ofNat 8 w else 0#8

/-- The answer to a decode, from the response of its BEXT. -/
def answerOf {σ : Type} (lookup : Nat → SymbolAnswer σ) : Option Response → SymbolAnswer σ
  | none => .noResponse
  | some r => if r.status = statusOk then lookup r.result.toNat else .unitFault r.status

/-- `decode_exhaustive` (R87). It looks at the width and the table only: called with an open specifier it reads the same
field and answers `noMatch` on a pattern that is not bound (DESIGN CHOICE, log 14). -/
def decodeExhaustive {σ : Type} (idx : BitIndex) (p : SymbolSpecifier σ) (s : State) :
    SymbolAnswer σ × Host.Outcome State Fault Refusal :=
  let k := getField idx (widthAsOperand p.width) s
  (answerOf (fun r => match symbolOf r p.table with
    | some x => .symbol x
    | none => .noMatch) k.response, k.outcome)

/-- `decode_open` (R88). It too looks at the width and the table only, so that it answers for an exhaustive specifier as
well (DESIGN CHOICE, log 14). -/
def decodeOpen {σ : Type} (idx : BitIndex) (p : SymbolSpecifier σ) (s : State) :
    SymbolAnswer σ × Host.Outcome State Fault Refusal :=
  let k := getField idx (widthAsOperand p.width) s
  (answerOf (fun r => match symbolOf r p.table with
    | some x => .symbol x
    | none => .unrecognized { width := p.width, raw := r }) k.response, k.outcome)

/-- `encode` (R89): write the discriminant bound to the symbol. A symbol that is not in the table is none of the
specifier's symbols, and there is no call. -/
def encodeSymbol {σ : Type} [DecidableEq σ] (idx : BitIndex) (x : σ) (p : SymbolSpecifier σ) (s : State) : Option Call :=
  (discriminantOf x p.table).map fun d => setField idx (widthAsOperand p.width) (BitVec.ofNat 128 d) s

end Sys2Proof.Machine
end

