-- ==== Sys2Proof/Safety.lean ====
section
/-! DEFINITION. What a safe run is (R9), and the terms the claims are stated in: the invariant, the bit-level value of a
field (R22), what of a state is the unit's own (R19). -/

namespace Sys2Proof.Machine

/-- The unit runs: `FCAUSE = 0` (R12, R104). -/
abbrev State.running (s : State) : Prop := s.fcause = statusOk

/-- The invariant of every state a run reaches: the buffer is in canonical form within its L bytes (R10), and FCAUSE
holds a legal value (R12). That `L <= 2^29` (R4) is the type of `Buffer.len`. -/
abbrev State.Inv (s : State) : Prop := s.buffer.wf = true ∧ fcauseLegal s.fcause = true

/-- The range of a command lies in the buffer (R24, R95). -/
abbrev State.inRange (s : State) (i w : Nat) : Prop := i + w ≤ 8 * s.buffer.len.val

/-- `sum over k in [0,w) of bit (i+k) * 2^k` of an array of bits (R22). -/
def bitsValue (bit : Nat → Bool) (i : Nat) : Nat → Nat
  | 0 => 0
  | w + 1 => bitsValue bit i w + (bit (i + w)).toNat * 2 ^ w

/-- The value of the field of width `w` at bit index `i` (R22). -/
abbrev fieldValue (B : Buffer) (i w : Nat) : Nat := bitsValue B.bitAt i w

/-- `s` after a successful command that answers `result`, nothing else changed. -/
def State.answered (s : State) (result : Value) : State :=
  { s with responses := s.responses ++ [{ status := statusOk, result := result }] }

/-- `s` after a command that faults (R99): the latch holds the code, the response carries it, all else is unchanged. -/
def State.faulted (s : State) (cause : FaultCause) : State :=
  { s with
    fcause := cause.code
    responses := s.responses ++ [{ status := cause.code, result := 0#128 }] }

/-- Present these command words, in order, and nothing else (R9, R15). -/
def presentAll (cws : List CommandWord) (s : State) : State := { s with inputs := cws.map HostMove.command }

/-- The run over a list of command words: one step for each (R9, R15). -/
def runWords (cws : List CommandWord) (s : State) : Host.Outcome State Fault Refusal :=
  Sys2Proof.core.run cws.length (presentAll cws s)

/-- A successful run (R9): it starts with `FCAUSE = 0`, every word is answered with STATUS 0x00, and `FCAUSE = 0` at
the end. Its result is the list of responses and the final `(B, FCAUSE)`. R9 judges success by the answer to the last
word, which the empty list has not: the run over it counts as successful here (DESIGN CHOICE, log 21). -/
def SuccessfulRun (cws : List CommandWord) (s : State) (answers : List Response) (t : State) : Prop :=
  s.running ∧ runWords cws s = .next t ∧ t.running ∧ t.responses = s.responses ++ answers ∧
    answers.length = cws.length ∧ ∀ r ∈ answers, r.status = statusOk

/-- Two bit ranges share no bit. -/
abbrev disjointRanges (i w i' w' : Nat) : Prop := i + w ≤ i' ∨ i' + w' ≤ i

/-! ### The unit as a bare array of bits

The reading of the four commands at the level of R21 and R22: no bytes, no chunks, no masks. The runs of the machine
are compared with it. -/

/-- The width of the range a command accesses (R63, R65, R67, R70). -/
def accessWidth : Instr → Nat
  | .bext _ w _ => w.toNat
  | .bins _ w _ => w.toNat
  | .btst _ _ _ => 1
  | .bset _ _ _ => 1

/-- The starting bit index of a command. -/
def accessIndex : Instr → Nat
  | .bext idx _ _ => idx.toNat
  | .bins idx _ _ => idx.toNat
  | .btst idx _ _ => idx.toNat
  | .bset idx _ _ => idx.toNat

/-- A command the spec has execute in a buffer of `L` bytes: legal WIDTH, range in the buffer (R45, R93). -/
def legalIn (L : Nat) (i : Instr) : Prop := i.wellFormed = true ∧ accessIndex i + accessWidth i ≤ 8 * L

/-- The array after a command (R67, R70). -/
def bitWrite (i : Instr) (bit : Nat → Bool) (j : Nat) : Bool :=
  match i with
  | .bext _ _ _ => bit j
  | .bins idx w v => if idx.toNat ≤ j ∧ j < idx.toNat + w.toNat then v.getLsbD (j - idx.toNat) else bit j
  | .btst _ _ _ => bit j
  | .bset idx _ v => if j = idx.toNat then v.getLsbD 0 else bit j

/-- The RESULT of a command (R42). -/
def bitAnswer (i : Instr) (bit : Nat → Bool) : Value :=
  match i with
  | .bext idx w _ => BitVec.ofNat 128 (bitsValue bit idx.toNat w.toNat)
  | .bins _ _ _ => 0#128
  | .btst idx _ _ => if bit idx.toNat then 1#128 else 0#128
  | .bset _ _ _ => 0#128

/-- The array after a list of commands, in their order, and the responses to them (R31). -/
def bitRun : List Instr → (Nat → Bool) → (Nat → Bool) × List Response
  | [], bit => (bit, [])
  | i :: rest, bit =>
    ((bitRun rest (bitWrite i bit)).1,
      { status := statusOk, result := bitAnswer i bit } :: (bitRun rest (bitWrite i bit)).2)

/-- The command words that write each field of a layout, given as (width, value), at its placement, in order (R79). -/
def layoutWrites (fields : List (WidthField × Value)) : List CommandWord :=
  List.zipWith (fun o f => encode (.bins (BitVec.ofNat 32 o) f.1 f.2)) (offsets (fields.map fun f => f.1.toNat)) fields

end Sys2Proof.Machine
end

