-- ==== Sys2Proof/Certificates/Slice0/Obligations.lean ====
section
/-! DEFINITION. The statements for the provers. Each docstring names the rule of spec/ it formalises; a clause that rests on
a choice of the model says so and names its log entry. -/

open Sys2Proof Sys2Proof.Machine

/-! ### Encoding -/

/-- R35, R39: nothing is dropped. Every command, at every value of its operands, is what its own word decodes to, and a
word that decodes is the word of the command it decodes to. -/
def Obligations.DecodeEncodeAgree : Prop :=
  (∀ i : Instr, decode (encode i) = .ok i) ∧ ∀ (cw : CommandWord) (i : Instr), decode cw = .ok i → encode i = cw

/-- R35, R39: words written out from the table decode to the command they stand for. -/
def Obligations.SpecWordsDecode : Prop :=
  decode 0x010D00000005_00000000000000000000000000000000#176 = .ok (.bext 5#32 13#8 0#128) ∧
  decode 0x021800000008_00000000000000000000000000ABCDEF#176 = .ok (.bins 8#32 24#8 0xABCDEF#128) ∧
  decode 0x030100000007_00000000000000000000000000000000#176 = .ok (.btst 7#32 1#8 0#128) ∧
  decode 0x040100000003_00000000000000000000000000000001#176 = .ok (.bset 3#32 1#8 1#128) ∧
  decode 0x090000000000_00000000000000000000000000000000#176 = .error .illegalCommand

/-- R35: the four fields of a command word lie where the rule says, with `v[hi:lo] = (v >> lo) mod 2^(hi-lo+1)`, and
they are the whole word. -/
def Obligations.CommandWordHasFourFields : Prop :=
  ∀ cw : CommandWord,
    (opcField cw).toNat = cw.toNat / 2 ^ 168 ∧
    (widthField cw).toNat = cw.toNat / 2 ^ 160 % 2 ^ 8 ∧
    (bitIndexField cw).toNat = cw.toNat / 2 ^ 128 % 2 ^ 32 ∧
    (valueField cw).toNat = cw.toNat % 2 ^ 128 ∧
    cw.toNat = (opcField cw).toNat * 2 ^ 168 + (widthField cw).toNat * 2 ^ 160 +
      (bitIndexField cw).toNat * 2 ^ 128 + (valueField cw).toNat

/-- R39: the match and mask pairs of the four rows of the opcode table pick the words that decode to the row's command,
for BTST and BSET with WIDTH 1. -/
def Obligations.TableRowsPickTheirCommands : Prop :=
  ∀ cw : CommandWord,
    (cw &&& (0xFF#176 <<< 168) = 0x01#176 <<< 168 ↔ ∃ idx w v, decode cw = .ok (.bext idx w v)) ∧
    (cw &&& (0xFF#176 <<< 168) = 0x02#176 <<< 168 ↔ ∃ idx w v, decode cw = .ok (.bins idx w v)) ∧
    (cw &&& (0xFFFF#176 <<< 160) = 0x0301#176 <<< 160 ↔ ∃ idx v, decode cw = .ok (.btst idx 1#8 v)) ∧
    (cw &&& (0xFFFF#176 <<< 160) = 0x0401#176 <<< 160 ↔ ∃ idx v, decode cw = .ok (.bset idx 1#8 v))

/-- R40: the response word is `STATUS ‖ RESULT`; a word presented to a running unit is answered by exactly one response,
a word presented to a halted unit by none. That a halted unit takes a step at all, and that the step removes the word, is
the model's choice and no words of R40 (log 6; R9 calls it no step). -/
def Obligations.OneResponsePerExecutedWord : Prop :=
  (∀ r : Response, r.word.toNat = r.status.toNat * 2 ^ 128 + r.result.toNat) ∧
  ∀ (s : State) (cw : CommandWord) (rest : List HostMove), s.inputs = .command cw :: rest →
    ∃ t, step s = .next t ∧ t.inputs = rest ∧
      (s.running → ∃ r, t.responses = s.responses ++ [r] ∧ (r.status = statusOk ↔ t.running) ∧ r.status = t.fcause) ∧
      (¬ s.running → t.responses = s.responses)

/-- R43: a word is no command exactly when its OPC is none of 0x01 to 0x04, whatever its other fields hold; it then
raises IllegalCommand. -/
def Obligations.IllegalOpcodeRaisesIllegalCommand : Prop :=
  (∀ cw : CommandWord, decode cw = .error .illegalCommand ↔ ¬ (1 ≤ cw.toNat / 2 ^ 168 ∧ cw.toNat / 2 ^ 168 ≤ 4)) ∧
  ∀ (s : State) (cw : CommandWord) (rest : List HostMove), s.running → s.inputs = .command cw :: rest →
    ¬ (1 ≤ cw.toNat / 2 ^ 168 ∧ cw.toNat / 2 ^ 168 ≤ 4) →
      step s = .next (({ s with inputs := rest } : State).faulted .illegalCommand)

/-- R46, R98: the decode order is the fault priority. A word presented to a running unit is judged by OPC, then by WIDTH,
then by its range, the sum taken on naturals, and only then executes as the command of its opcode. -/
def Obligations.DecodeOrderIsFaultPriority : Prop :=
  ∀ (s : State) (cw : CommandWord) (rest : List HostMove) (opc w i : Nat), s.running →
    s.inputs = .command cw :: rest → opc = (opcField cw).toNat → w = (widthField cw).toNat →
    i = (bitIndexField cw).toNat →
    (¬ (1 ≤ opc ∧ opc ≤ 4) → step s = .next (({ s with inputs := rest } : State).faulted .illegalCommand)) ∧
    (opc = 1 ∨ opc = 2 → w = 0 ∨ 128 < w →
      step s = .next (({ s with inputs := rest } : State).faulted .illegalWidth)) ∧
    (opc = 3 ∨ opc = 4 → w ≠ 1 → step s = .next (({ s with inputs := rest } : State).faulted .illegalWidth)) ∧
    (((opc = 1 ∨ opc = 2) ∧ 1 ≤ w ∧ w ≤ 128) ∨ ((opc = 3 ∨ opc = 4) ∧ w = 1) → 8 * s.buffer.len.val < i + w →
      step s = .next (({ s with inputs := rest } : State).faulted .boundsViolation)) ∧
    (((opc = 1 ∨ opc = 2) ∧ 1 ≤ w ∧ w ≤ 128) ∨ ((opc = 3 ∨ opc = 4) ∧ w = 1) → i + w ≤ 8 * s.buffer.len.val →
      (opc = 1 → step s = exec (.bext (bitIndexField cw) (widthField cw) (valueField cw)) { s with inputs := rest }) ∧
      (opc = 2 → step s = exec (.bins (bitIndexField cw) (widthField cw) (valueField cw)) { s with inputs := rest }) ∧
      (opc = 3 → step s = exec (.btst (bitIndexField cw) (widthField cw) (valueField cw)) { s with inputs := rest }) ∧
      (opc = 4 → step s = exec (.bset (bitIndexField cw) (widthField cw) (valueField cw)) { s with inputs := rest }) ∧
      ∃ t, step s = .next t ∧ t.running)

/-- R15, R46: a step runs the decoded command. Around `exec` it only takes the host's move off the list (log 3). -/
def Obligations.StepRunsTheDecodedCommand : Prop :=
  ∀ (s : State) (cw : CommandWord) (rest : List HostMove) (i : Instr), s.running →
    s.inputs = .command cw :: rest → decode cw = .ok i → step s = exec i { s with inputs := rest }

/-- The very next step of a running unit runs exactly the command whose table word is presented (logs 3 and 16). -/
def Obligations.PresentedTableWordRunsNext : Prop :=
  ∀ (s : State) (i : Instr), s.running →
    decodeTableWord 176 (encode i).toNat = some i ∧ step (s.withFetchWord 176 (encode i).toNat) = exec i s

/-! ### The four commands -/

/-- R63: BEXT in full, with its encoding. An illegal width faults, a range past the end faults, and otherwise the answer is the field's
value zero-extended and nothing else changes. -/
def Obligations.BextReadsTheField : Prop :=
  (∀ (idx : BitIndex) (w : WidthField) (v : Value), decode (0x01#8 ++ w ++ idx ++ v) = .ok (.bext idx w v)) ∧
  ∀ (s : State) (idx : BitIndex) (w : WidthField) (v : Value), s.running →
    (w.toNat = 0 ∨ 128 < w.toNat → exec (.bext idx w v) s = .next (s.faulted .illegalWidth)) ∧
    (1 ≤ w.toNat → w.toNat ≤ 128 → 8 * s.buffer.len.val < idx.toNat + w.toNat →
      exec (.bext idx w v) s = .next (s.faulted .boundsViolation)) ∧
    (1 ≤ w.toNat → w.toNat ≤ 128 → s.inRange idx.toNat w.toNat →
      exec (.bext idx w v) s = .next (s.answered (BitVec.ofNat 128 (fieldValue s.buffer idx.toNat w.toNat))))

/-- R65: BTST in full, with its encoding. -/
def Obligations.BtstTestsOneBit : Prop :=
  (∀ (idx : BitIndex) (w : WidthField) (v : Value), decode (0x03#8 ++ w ++ idx ++ v) = .ok (.btst idx w v)) ∧
  ∀ (s : State) (idx : BitIndex) (w : WidthField) (v : Value), s.running →
    (w.toNat ≠ 1 → exec (.btst idx w v) s = .next (s.faulted .illegalWidth)) ∧
    (w.toNat = 1 → 8 * s.buffer.len.val ≤ idx.toNat → exec (.btst idx w v) s = .next (s.faulted .boundsViolation)) ∧
    (w.toNat = 1 → idx.toNat < 8 * s.buffer.len.val →
      exec (.btst idx w v) s = .next (s.answered (if s.buffer.bitAt idx.toNat then 1#128 else 0#128)))

/-- R67: BINS in full, with its encoding. The range takes the low `w` bits of VALUE, every other bit of the buffer is unchanged, the answer
is 0, FCAUSE is unchanged; a faulting BINS leaves the buffer unchanged. -/
def Obligations.BinsWritesTheField : Prop :=
  (∀ (idx : BitIndex) (w : WidthField) (v : Value), decode (0x02#8 ++ w ++ idx ++ v) = .ok (.bins idx w v)) ∧
  ∀ (s : State) (idx : BitIndex) (w : WidthField) (v : Value), s.running →
    (w.toNat = 0 ∨ 128 < w.toNat → exec (.bins idx w v) s = .next (s.faulted .illegalWidth)) ∧
    (1 ≤ w.toNat → w.toNat ≤ 128 → 8 * s.buffer.len.val < idx.toNat + w.toNat →
      exec (.bins idx w v) s = .next (s.faulted .boundsViolation)) ∧
    (1 ≤ w.toNat → w.toNat ≤ 128 → s.inRange idx.toNat w.toNat → s.Inv →
      ∃ B : Buffer, exec (.bins idx w v) s = .next (({ s with buffer := B } : State).answered 0#128) ∧
        B.len = s.buffer.len ∧
        ∀ j, B.bitAt j = if idx.toNat ≤ j ∧ j < idx.toNat + w.toNat then v.getLsbD (j - idx.toNat)
          else s.buffer.bitAt j)

/-- R70: BSET in full, with its encoding. -/
def Obligations.BsetWritesOneBit : Prop :=
  (∀ (idx : BitIndex) (w : WidthField) (v : Value), decode (0x04#8 ++ w ++ idx ++ v) = .ok (.bset idx w v)) ∧
  ∀ (s : State) (idx : BitIndex) (w : WidthField) (v : Value), s.running →
    (w.toNat ≠ 1 → exec (.bset idx w v) s = .next (s.faulted .illegalWidth)) ∧
    (w.toNat = 1 → 8 * s.buffer.len.val ≤ idx.toNat → exec (.bset idx w v) s = .next (s.faulted .boundsViolation)) ∧
    (w.toNat = 1 → idx.toNat < 8 * s.buffer.len.val → s.Inv →
      ∃ B : Buffer, exec (.bset idx w v) s = .next (({ s with buffer := B } : State).answered 0#128) ∧
        B.len = s.buffer.len ∧ ∀ j, B.bitAt j = if j = idx.toNat then v.getLsbD 0 else s.buffer.bitAt j)

/-- R24, R93: every command completes with STATUS 0x00 on every legal word whose range is in bounds, at every alignment,
with no condition on the buffer's contents. -/
def Obligations.EveryCommandCompletesInBounds : Prop :=
  ∀ (s : State) (idx : BitIndex) (w : WidthField) (v : Value), s.running →
    (1 ≤ w.toNat → w.toNat ≤ 128 → s.inRange idx.toNat w.toNat →
      ∃ t r, exec (.bext idx w v) s = .next t ∧ t.fcause = 0x00#8 ∧
        t.responses = s.responses ++ [{ status := 0x00#8, result := r }]) ∧
    (1 ≤ w.toNat → w.toNat ≤ 128 → s.inRange idx.toNat w.toNat →
      ∃ t, exec (.bins idx w v) s = .next t ∧ t.fcause = 0x00#8 ∧
        t.responses = s.responses ++ [{ status := 0x00#8, result := 0#128 }]) ∧
    (w.toNat = 1 → s.inRange idx.toNat 1 →
      ∃ t r, exec (.btst idx w v) s = .next t ∧ t.fcause = 0x00#8 ∧
        t.responses = s.responses ++ [{ status := 0x00#8, result := r }]) ∧
    (w.toNat = 1 → s.inRange idx.toNat 1 →
      ∃ t, exec (.bset idx w v) s = .next t ∧ t.fcause = 0x00#8 ∧
        t.responses = s.responses ++ [{ status := 0x00#8, result := 0#128 }])

/-- R66: BTST is BEXT at width 1, in every state; the walk of one bit is one chunk. -/
def Obligations.BtstIsBextAtWidthOne : Prop :=
  (∀ (s : State) (idx : BitIndex) (v u : Value), exec (.btst idx 1#8 v) s = exec (.bext idx 1#8 u) s) ∧
  (∀ i, chunks i 1 = [{ byte := i / 8, off := i % 8, c := 1, shift := 0 }]) ∧
  (∀ (b : Byte) (off : Nat), extractChunk b off 1 = (b.toNat >>> off) &&& 1) ∧
  ∀ (s : State) (idx : BitIndex) (w : WidthField) (v : Value), s.running → w ≠ 1#8 →
    exec (.btst idx w v) s = .next (s.faulted .illegalWidth)

/-- R71: BSET is BINS at width 1, in every state and for every VALUE. -/
def Obligations.BsetIsBinsAtWidthOne : Prop :=
  (∀ (s : State) (idx : BitIndex) (v : Value), exec (.bset idx 1#8 v) s = exec (.bins idx 1#8 v) s) ∧
  (∀ (b : Byte) (off v : Nat), off < 8 →
    (insertChunk b off 1 v).toNat = if v % 2 = 1 then b.toNat ||| (1 <<< off) else b.toNat &&& not8 (1 <<< off)) ∧
  ∀ (s : State) (idx : BitIndex) (w : WidthField) (v : Value), s.running → w ≠ 1#8 →
    exec (.bset idx w v) s = .next (s.faulted .illegalWidth)

/-- R68: an oversized value is masked and never fails. BINS with VALUE does what BINS with `VALUE mod 2^w` does, in every
state; in range its STATUS is 0x00. -/
def Obligations.OversizedValueIsMasked : Prop :=
  (∀ (s : State) (idx : BitIndex) (w : WidthField) (v : Value),
    exec (.bins idx w v) s = exec (.bins idx w (BitVec.ofNat 128 (v.toNat % 2 ^ w.toNat))) s) ∧
  ∀ (s : State) (idx : BitIndex) (w : WidthField) (v : Value), s.running → 1 ≤ w.toNat → w.toNat ≤ 128 →
    s.inRange idx.toNat w.toNat → 2 ^ w.toNat ≤ v.toNat →
      ∃ B : Buffer, exec (.bins idx w v) s = .next (({ s with buffer := B } : State).answered 0#128)

/-- R38, R45: ignored bits never change anything: VALUE for BEXT and BTST, `VALUE[127:1]` for BSET. (BINS's ignored bits
are `OversizedValueIsMasked`.) -/
def Obligations.IgnoredBitsChangeNothing : Prop :=
  ∀ (s : State) (idx : BitIndex) (w : WidthField) (v u : Value),
    exec (.bext idx w v) s = exec (.bext idx w u) s ∧ exec (.btst idx w v) s = exec (.btst idx w u) s ∧
    (v.getLsbD 0 = u.getLsbD 0 → exec (.bset idx w v) s = exec (.bset idx w u) s)

/-- R64: the result of a BEXT is below `2^w`, so PMW's typed value `RESULT[container(w)-1:0]` loses nothing. -/
def Obligations.TypedResultLosesNothing : Prop :=
  ∀ (s : State) (idx : BitIndex) (w : WidthField) (v : Value), s.running → 1 ≤ w.toNat → w.toNat ≤ 128 →
    s.inRange idx.toNat w.toNat →
      ∃ r : Value, exec (.bext idx w v) s = .next (s.answered r) ∧ r.toNat < 2 ^ w.toNat ∧
        typedValue w.toNat r = some r.toNat

/-! ### The shift-and-mask unit -/

/-- The laws of the walk that R51 derives from R50, (a) to (i), with one clause of (a) corrected: a walk has 17 chunks
exactly when `i % 8 + w > 128` (R50 and R25; log 20), not only at `w = 128`. -/
def Obligations.WalkLaws : Prop :=
  ∀ i w : Nat, 1 ≤ w → w ≤ 128 →
    ((chunks i w).length = bytesTouched i w ∧ bytesTouched i w = (i % 8 + w + 7) / 8 ∧ 1 ≤ (chunks i w).length ∧ (chunks i w).length ≤ 17 ∧
      ((chunks i w).length = 17 ↔ 128 < i % 8 + w)) ∧
    (∀ (k : Nat) (q : Chunk), (chunks i w)[k]? = some q →
      q.byte = i / 8 + k ∧
      (k = 0 → q.off = i % 8 ∧ q.c = min (8 - i % 8) w ∧ q.shift = 0) ∧
      (1 ≤ k → q.off = 0 ∧ q.shift = (8 - i % 8) + 8 * (k - 1) ∧ q.c = min 8 (w - q.shift)) ∧
      1 ≤ q.c ∧ q.c ≤ 8 ∧ q.off + q.c ≤ 8 ∧ q.shift + q.c ≤ w ∧ q.shift ≤ 127 ∧
      8 * q.byte + q.off = i + q.shift) ∧
    (∀ (k : Nat) (q q' : Chunk), (chunks i w)[k]? = some q → (chunks i w)[k + 1]? = some q' →
      q'.shift = q.shift + q.c) ∧
    ((chunks i w).map Chunk.c).sum = w ∧
    ∀ j, (i ≤ j ∧ j < i + w) ↔
      ∃! q : Chunk, q ∈ chunks i w ∧ 8 * q.byte + q.off ≤ j ∧ j < 8 * q.byte + q.off + q.c

/-- The clause of R51 (a) that the walk of R50 does not keep (log 20): `n = 17` exactly when `w = 128` and `o != 0`. It
FAILS: the 127-bit field at bit index 2 ends at bit 128 and touches bytes 0 to 16. -/
def Obligations.SeventeenChunksOnlyAtWidth128 : Prop :=
  ∀ i w : Nat, 1 ≤ w → w ≤ 128 → ((chunks i w).length = 17 ↔ w = 128 ∧ i % 8 ≠ 0)

/-- R52 to R55: the masks and the single-byte primitives, as formulas and at the level of bits. -/
def Obligations.ChunkPrimitives : Prop :=
  [1, 2, 3, 4, 5, 6, 7, 8].map lowMask = [0x01, 0x03, 0x07, 0x0F, 0x1F, 0x3F, 0x7F, 0xFF] ∧
  ∀ (b : Byte) (off c v : Nat), off ≤ 7 → 1 ≤ c → off + c ≤ 8 →
    extractChunk b off c = b.toNat / 2 ^ off % 2 ^ c ∧ extractChunk b off c < 2 ^ c ∧
    chunkMask off c = (2 ^ c - 1) * 2 ^ off ∧ chunkMask off c ≤ 0xFF ∧
    ∀ k, (insertChunk b off c v).getLsbD k = if off ≤ k ∧ k < off + c then v.testBit (k - off) else b.getLsbD k

/-! ### Laws of reading and writing -/

/-- R72: what BINS wrote BEXT reads back, an oversized value modulo `2^w`, at every width and every alignment. -/
def Obligations.WrittenFieldReadsBack : Prop :=
  ∀ (s : State) (idx : BitIndex) (w : WidthField) (v u : Value), s.Inv → s.running → 1 ≤ w.toNat → w.toNat ≤ 128 →
    s.inRange idx.toNat w.toNat →
      ∃ t, runWords [encode (.bins idx w v), encode (.bext idx w u)] s = .next t ∧ t.running ∧
        t.responses = s.responses ++
          [{ status := 0x00#8, result := 0#128 },
           { status := 0x00#8, result := BitVec.ofNat 128 (v.toNat % 2 ^ w.toNat) }]

/-- R61, non-interference: a write is not seen by a read of a disjoint range. -/
def Obligations.DisjointReadDoesNotSeeTheWrite : Prop :=
  ∀ (s : State) (idx idx' : BitIndex) (w w' : WidthField) (v u : Value), s.Inv → s.running →
    1 ≤ w.toNat → w.toNat ≤ 128 → s.inRange idx.toNat w.toNat →
    1 ≤ w'.toNat → w'.toNat ≤ 128 → s.inRange idx'.toNat w'.toNat →
    disjointRanges idx.toNat w.toNat idx'.toNat w'.toNat →
      ∃ t, runWords [encode (.bins idx w v), encode (.bext idx' w' u)] s = .next t ∧
        t.responses = s.responses ++
          [{ status := 0x00#8, result := 0#128 },
           { status := 0x00#8, result := BitVec.ofNat 128 (fieldValue s.buffer idx'.toNat w'.toNat) }]

/-- R61, write-write: disjoint writes commute; the two orders end in the same state. -/
def Obligations.DisjointWritesCommute : Prop :=
  ∀ (s : State) (idx idx' : BitIndex) (w w' : WidthField) (v v' : Value), s.Inv → s.running →
    1 ≤ w.toNat → w.toNat ≤ 128 → s.inRange idx.toNat w.toNat →
    1 ≤ w'.toNat → w'.toNat ≤ 128 → s.inRange idx'.toNat w'.toNat →
    disjointRanges idx.toNat w.toNat idx'.toNat w'.toNat →
      ∃ t, runWords [encode (.bins idx w v), encode (.bins idx' w' v')] s = .next t ∧
        runWords [encode (.bins idx' w' v'), encode (.bins idx w v)] s = .next t

/-- R61, write-write, and R27: of two writes to one range the later one is left, and a repeated write changes nothing
more. -/
def Obligations.LaterWriteToARangeWins : Prop :=
  ∀ (s : State) (idx : BitIndex) (w : WidthField) (v v' : Value), s.Inv → s.running →
    1 ≤ w.toNat → w.toNat ≤ 128 → s.inRange idx.toNat w.toNat →
      ∃ t t', runWords [encode (.bins idx w v), encode (.bins idx w v')] s = .next t ∧
        runWords [encode (.bins idx w v')] s = .next t' ∧ t.buffer = t'.buffer

/-- R61, read-back identity, and R67 (f): writing the value a range already holds leaves the buffer as it was. -/
def Obligations.WritingBackTheValueChangesNothing : Prop :=
  ∀ (s : State) (idx : BitIndex) (w : WidthField), s.Inv → s.running → 1 ≤ w.toNat → w.toNat ≤ 128 →
    s.inRange idx.toNat w.toNat →
      exec (.bins idx w (BitVec.ofNat 128 (fieldValue s.buffer idx.toNat w.toNat))) s = .next (s.answered 0#128)

/-- R61, splitting: a field is its low part and its high part, read separately. -/
def Obligations.FieldReadsSplit : Prop :=
  ∀ (s : State) (idx idx' : BitIndex) (w w₁ w₂ : WidthField) (v : Value), s.running → w.toNat ≤ 128 →
    1 ≤ w₁.toNat → 1 ≤ w₂.toNat → w.toNat = w₁.toNat + w₂.toNat → idx'.toNat = idx.toNat + w₁.toNat →
    s.inRange idx.toNat w.toNat →
      ∃ r r₁ r₂ : Value, exec (.bext idx w v) s = .next (s.answered r) ∧
        exec (.bext idx w₁ v) s = .next (s.answered r₁) ∧ exec (.bext idx' w₂ v) s = .next (s.answered r₂) ∧
        r = r₁ ||| (r₂ <<< w₁.toNat)

/-- R31: a run of legal commands does to the unit what the commands, read as R21 and R22 read them, do to a bare array of
bits, in their order: the same responses and the same bits at the end; and the run is successful (R9; that the
empty run is, is the model's choice, log 21). -/
def Obligations.RunIsAnArrayOfBits : Prop :=
  ∀ (s : State) (is : List Instr), s.Inv → s.running → (∀ i ∈ is, legalIn s.buffer.len.val i) →
    ∃ t, SuccessfulRun (is.map encode) s (bitRun is s.buffer.bitAt).2 t ∧
      ∀ j, t.buffer.bitAt j = (bitRun is s.buffer.bitAt).1 j

/-! ### Frames -/

/-- R27, R63, R65: what BEXT and BTST leave unchanged, in every state: the buffer, every byte of it, and the host's other
moves; FCAUSE too, unless the command faults. -/
def Obligations.ReadCommandFrame : Prop :=
  ∀ (s t : State) (idx : BitIndex) (w : WidthField) (v : Value),
    exec (.bext idx w v) s = .next t ∨ exec (.btst idx w v) s = .next t →
      t.buffer = s.buffer ∧ (∀ a, t.buffer.byteAt a = s.buffer.byteAt a) ∧ t.inputs = s.inputs ∧
      (t.fcause = s.fcause ∨ (s.running ∧ (t = s.faulted .illegalWidth ∨ t = s.faulted .boundsViolation)))

/-- R59, R69, R70: what BINS and BSET leave unchanged: the length, the host's other moves, every byte outside
`bit_index/8 .. (bit_index+w-1)/8`, and every bit outside the range; FCAUSE too, unless the command faults, and then the
whole buffer. Those rules speak of a unit with FCAUSE = 0; that a meaning run in a halted unit leaves the buffer unchanged
rests on R100 and on the model's log 7. -/
def Obligations.WriteCommandFrame : Prop :=
  ∀ (s t : State) (i : Instr) (idx : BitIndex) (w : WidthField) (v : Value), s.Inv →
    i = .bins idx w v ∨ i = .bset idx w v → exec i s = .next t →
      t.buffer.len = s.buffer.len ∧ t.inputs = s.inputs ∧
      (∀ a, a < idx.toNat / 8 ∨ (idx.toNat + accessWidth i - 1) / 8 < a →
        t.buffer.byteAt a = s.buffer.byteAt a) ∧
      (∀ j, j < idx.toNat ∨ idx.toNat + accessWidth i ≤ j → t.buffer.bitAt j = s.buffer.bitAt j) ∧
      (t.fcause = s.fcause ∨ (s.running ∧ (t = s.faulted .illegalWidth ∨ t = s.faulted .boundsViolation))) ∧
      (t.fcause ≠ 0x00#8 → t.buffer = s.buffer)

/-! ### Faults and the halted condition -/

/-- R96: IllegalWidth, for every command; neither BITIDX nor VALUE nor the buffer matters. -/
def Obligations.IllegalWidthFaults : Prop :=
  ∀ (s : State) (idx : BitIndex) (w : WidthField) (v : Value), s.running →
    (w.toNat = 0 ∨ (129 ≤ w.toNat ∧ w.toNat ≤ 255) →
      exec (.bext idx w v) s = .next (s.faulted .illegalWidth) ∧
      exec (.bins idx w v) s = .next (s.faulted .illegalWidth)) ∧
    (w.toNat ≠ 1 →
      exec (.btst idx w v) s = .next (s.faulted .illegalWidth) ∧
      exec (.bset idx w v) s = .next (s.faulted .illegalWidth))

/-- R95: BoundsViolation, for every well-formed command, exactly when the last bit of its range is not a bit of the
buffer; `bit_index + w = 8*L` does not fault. -/
def Obligations.BoundsViolationFaults : Prop :=
  ∀ (s : State) (i : Instr), s.running → i.wellFormed = true →
    (8 * s.buffer.len.val < accessIndex i + accessWidth i → exec i s = .next (s.faulted .boundsViolation)) ∧
    (accessIndex i + accessWidth i ≤ 8 * s.buffer.len.val → ∃ t, exec i s = .next t ∧ t.fcause = 0x00#8)

/-- R99: fault entry. Whenever a presented word leaves the unit with a cause, the buffer is what it was, FCAUSE holds the
code, the one response carries it with RESULT 0, and the unit is halted. -/
def Obligations.FaultEntryIsPrecise : Prop :=
  ∀ (s t : State) (cw : CommandWord) (rest : List HostMove), s.running → s.inputs = .command cw :: rest →
    step s = .next t → t.fcause ≠ 0x00#8 →
      ∃ c : FaultCause, t.buffer = s.buffer ∧ t.fcause = c.code ∧
        t.responses = s.responses ++ [{ status := c.code, result := 0#128 }] ∧ t.halted = true ∧ t.inputs = rest

/-- R100: a halted unit executes no command: the word is not decoded, changes neither B nor FCAUSE and gives no response;
only the host's move is gone (log 6). No meaning does anything in a halted unit (log 7). A halted state ends no
successful run. -/
def Obligations.HaltedUnitExecutesNothing : Prop :=
  (∀ (s : State) (cw : CommandWord) (rest : List HostMove), s.fcause ≠ 0x00#8 → s.inputs = .command cw :: rest →
    step s = .next { s with inputs := rest }) ∧
  (∀ (s : State) (i : Instr), s.fcause ≠ 0x00#8 → exec i s = .next s) ∧
  ∀ (cws : List CommandWord) (s t : State) (answers : List Response), SuccessfulRun cws s answers t →
    t.halted = false

/-- R101: no command clears FCAUSE and no second fault occurs: out of the halted condition there is only reset, and it
zeroes the buffer. -/
def Obligations.OnlyResetLeavesTheHaltedCondition : Prop :=
  ∀ s t : State, s.fcause ≠ 0x00#8 → step s = .next t →
    (t.fcause = s.fcause ∧ t.buffer = s.buffer ∧ t.responses = s.responses) ∨
    ∃ rest, s.inputs = .reset :: rest ∧ t.fcause = 0x00#8 ∧ ∀ a, t.buffer.byteAt a = 0x00#8

/-- R12: FCAUSE is written only by a fault, which takes a running unit to one of the three codes, and by reset. -/
def Obligations.LatchIsWrittenByFaultAndResetOnly : Prop :=
  ∀ s t : State, step s = .next t → t.fcause ≠ s.fcause →
    (s.fcause = 0x00#8 ∧ (t.fcause = 0x01#8 ∨ t.fcause = 0x02#8 ∨ t.fcause = 0x03#8) ∧
      ∃ cw rest, s.inputs = .command cw :: rest) ∨
    (t.fcause = 0x00#8 ∧ ∃ rest, s.inputs = .reset :: rest)

/-! ### Reset -/

/-- R18: after reset every byte is 0x00 and FCAUSE is 0x00, for every L. (That `State.reset` has the L it has, and that
nothing is presented and nothing answered, are the model's choices, logs 2, 3 and 4; they are not stated.) -/
def Obligations.ResetValues : Prop :=
  (∀ (L : Config.BufferLength) (a : Nat), (State.zeroed L).buffer.byteAt a = 0x00#8) ∧
  (∀ L : Config.BufferLength, (State.zeroed L).fcause = 0x00#8 ∧ (State.zeroed L).buffer.len = L) ∧
  (∀ a, State.reset.buffer.byteAt a = 0x00#8) ∧ State.reset.fcause = 0x00#8

/-- R107: reset zeroes every byte and FCAUSE, running or halted; L is unchanged and there is no response. -/
def Obligations.ResetZeroesTheUnit : Prop :=
  ∀ (s : State) (rest : List HostMove), s.inputs = .reset :: rest →
    ∃ t, step s = .next t ∧ (∀ a, t.buffer.byteAt a = 0x00#8) ∧ t.fcause = 0x00#8 ∧
      t.buffer.len = s.buffer.len ∧ t.responses = s.responses ∧ t.inputs = rest

/-- R108: after reset every in-range BEXT answers OK 0 and every in-range BTST answers OK 0. -/
def Obligations.EveryRangeReadsZeroAfterReset : Prop :=
  ∀ (s t : State) (rest : List HostMove) (idx : BitIndex) (w : WidthField) (v : Value), s.inputs = .reset :: rest →
    step s = .next t →
      (1 ≤ w.toNat → w.toNat ≤ 128 → s.inRange idx.toNat w.toNat →
        exec (.bext idx w v) t = .next (t.answered 0#128)) ∧
      (idx.toNat < 8 * s.buffer.len.val → exec (.btst idx 1#8 v) t = .next (t.answered 0#128))

/-! ### The whole machine -/

/-- The invariant holds right after reset, for every L. -/
def Obligations.ResetMeetsTheInvariant : Prop := State.reset.Inv ∧ ∀ L : Config.BufferLength, (State.zeroed L).Inv

/-- R10, R12: every step keeps the invariant: the buffer stays canonical within its L bytes, FCAUSE stays legal. -/
def Obligations.StepKeepsTheInvariant : Prop := ∀ s t : State, s.Inv → step s = .next t → t.Inv

/-- R4, R10: the length never changes, whatever the host does. -/
def Obligations.StepKeepsTheLength : Prop := ∀ s t : State, step s = .next t → t.buffer.len = s.buffer.len

/-- Every step answers a next state, from every state, and so does every meaning. Of a presented word in a running unit
this rests on R30 and R117: every command terminates, and none reaches an address outside the buffer. The other clauses
are the model's choices: that an idle state takes a step (log 5), that a halted unit does and that a meaning run in it
answers it (logs 6 and 7); and the fault ruled out, `addressOutsideBuffer`, is the model's own name (log 8). -/
def Obligations.EveryStepAnswers : Prop :=
  (∀ s : State, ∃ t, step s = .next t) ∧ ∀ (i : Instr) (s : State), ∃ t, exec i s = .next t

/-- R19: no hidden state. Two machines with equal `(B, FCAUSE)` and equal L respond identically to every sequence of
moves, whatever they answered before, and stay equal. That every step of the run is taken is the model's choice in part: one
past the host's last move (log 5), and one that presents a word to a halted unit (log 6); the record of responses is the
model's own field (log 4). -/
def Obligations.NoHiddenState : Prop :=
  ∀ (n : Nat) (s s' : State), s.buffer = s'.buffer → s.fcause = s'.fcause → s.inputs = s'.inputs →
    ∃ t t' answers, Sys2Proof.core.run n s = .next t ∧ Sys2Proof.core.run n s' = .next t' ∧
      t.buffer = t'.buffer ∧ t.fcause = t'.fcause ∧ t.inputs = t'.inputs ∧
      t.responses = s.responses ++ answers ∧ t'.responses = s'.responses ++ answers

/-- R8, R11: what the host sees of the buffer is its L bytes, lowest address first, and nothing past them; what it sees of
the latch is FCAUSE. -/
def Obligations.HostViewsTheBuffer : Prop :=
  ∀ s : State, s.bufferView.length = s.buffer.len.val ∧ s.faultView = s.fcause ∧
    (∀ a, s.bufferView[a]? = s.viewByte a) ∧
    (∀ a, a < s.buffer.len.val → s.viewByte a = some (s.buffer.byteAt a)) ∧
    (∀ a, s.buffer.len.val ≤ a → s.viewByte a = none)

/-! ### Construction and placement -/

/-- R76: the ladder: the narrowest of 8, 16, 32, 64, 128 that is at least `w`, and nothing outside `[1,128]`. -/
def Obligations.ContainerIsTheNarrowestRung : Prop :=
  ∀ w : Nat,
    (1 ≤ w → w ≤ 128 → ∃ c ∈ [8, 16, 32, 64, 128], container w = some c ∧ w ≤ c ∧
      ∀ c' ∈ [8, 16, 32, 64, 128], w ≤ c' → c ≤ c') ∧
    (w = 0 ∨ 128 < w → container w = none)

/-- R77, R78: the validation primitives; on `err` no unit is built. The name of that refusal, and the
answer of the range check at a width outside `[1,128]`, are the model's choices (log 13). -/
def Obligations.ValidationPrimitives : Prop :=
  (∀ n, validateTotalMultipleOf8 n = .ok ↔ n % 8 = 0) ∧ (∀ n, validateTotalMultipleOf8 n = .err ↔ n % 8 ≠ 0) ∧
  (∀ d w, validateDiscriminantRange d w = .ok ↔ d < 2 ^ w) ∧ (∀ d w, validateDiscriminantRange d w = .err ↔ 2 ^ w ≤ d) ∧
  (∀ n, n % 8 ≠ 0 → ∃ e, newZeroed n = .error e)

/-- R79: placement is contiguous and without overlap or padding: field `k` starts at the sum of the widths before it, its
end is the start of the next, and the last ends at `N`. It is stated for every list of widths; at a width outside `[1,128]`,
which no field has, these sums are the model's choice (log 13). -/
def Obligations.PlacementIsContiguous : Prop :=
  ∀ widths : List Nat, (offsets widths).length = widths.length ∧
    (∀ k w : Nat, widths[k]? = some w → (offsets widths)[k]? = some (widths.take k).sum ∧
      (placements widths)[k]? = some ((widths.take k).sum, w)) ∧
    (∀ k w o o' : Nat, widths[k]? = some w → (offsets widths)[k]? = some o → (offsets widths)[k + 1]? = some o' →
      o' = o + w) ∧
    (∀ j k w o o' : Nat, j < k → widths[j]? = some w → (offsets widths)[j]? = some o → (offsets widths)[k]? = some o' →
      o + w ≤ o') ∧
    totalBits widths = widths.sum

/-- R75: `field_width` of every field type: the width of a numeric field, 1 for a Boolean field, the specifier's width for
a symbol field; the result is always in `[1,128]`. -/
def Obligations.FieldWidthOfEveryType : Prop :=
  ∀ σ : Type,
    (∀ w : FieldWidth, (fieldWidth (.numeric w : FieldType σ)).val = w.val) ∧
    (fieldWidth (.boolean : FieldType σ)).val = 1 ∧
    (∀ p : ValidSpecifier σ, (fieldWidth (.symbol p)).val = p.val.width) ∧
    ∀ t : FieldType σ, 1 ≤ (fieldWidth t).val ∧ (fieldWidth t).val ≤ 128

/-- R110, R74: a layout boots exactly when every width is supported, every specifier is validated and the total is a
multiple of 8 that R4 allows; then the unit has the length its fields add up to, is zero, runs, and holds every declared
field at its placement. (That a refusal has a name, and which, is the model's, log 13; a total above 2^32 bits, which U13
refuses, is one of them. That these conditions are all, and a declared field width mismatch, an error of R82 (d) and R106,
is none of them, is the model's choice: it cannot be written, log 22.) -/
def Obligations.BootedUnitHoldsItsFields : Prop :=
  ∀ (σ : Type) (fields : List (FieldDeclaration σ)) (widths : List Nat), widths = fields.map declaredWidth →
    (∀ s ps, boot fields = .ok (s, ps) →
      8 * s.buffer.len.val = widths.sum ∧ (∀ a, s.buffer.byteAt a = 0x00#8) ∧ s.running ∧ s.Inv ∧
      ps = placements widths ∧ ps.length = fields.length ∧ ∀ q ∈ ps, 1 ≤ q.2 ∧ q.2 ≤ 128 ∧ s.inRange q.1 q.2) ∧
    ((∃ s ps, boot fields = .ok (s, ps)) ↔
      (∀ w ∈ widths, 1 ≤ w ∧ w ≤ 128) ∧ (∀ p, .symbol p ∈ fields → p.validate = .ok ()) ∧ widths.sum % 8 = 0 ∧
      widths.sum ≤ 8 * 2 ^ 29)

/-- R72, R79: a layout's fields are independent. Writing each field at its placement, in order, leaves in every field the
value written to it, modulo `2^w`. -/
def Obligations.LayoutFieldsReadBack : Prop :=
  ∀ (s : State) (fields : List (WidthField × Value)), s.Inv → s.running →
    (∀ f ∈ fields, 1 ≤ f.1.toNat ∧ f.1.toNat ≤ 128) →
    totalBits (fields.map fun f => f.1.toNat) ≤ 8 * s.buffer.len.val →
      ∃ t, runWords (layoutWrites fields) s = .next t ∧ t.running ∧
        ∀ (k o : Nat) (f : WidthField × Value), fields[k]? = some f →
          (offsets (fields.map fun f => f.1.toNat))[k]? = some o →
            fieldValue t.buffer o f.1.toNat = f.2.toNat % 2 ^ f.1.toNat

/-- R80: the field values alone fix every byte. When the fields of a layout fill the buffer, writing them all leaves the
same buffer whatever it held before. -/
def Obligations.FieldValuesFixTheBuffer : Prop :=
  ∀ (s s' : State) (fields : List (WidthField × Value)), s.Inv → s'.Inv → s.running → s'.running →
    s.buffer.len = s'.buffer.len → (∀ f ∈ fields, 1 ≤ f.1.toNat ∧ f.1.toNat ≤ 128) →
    totalBits (fields.map fun f => f.1.toNat) = 8 * s.buffer.len.val →
      ∃ t t', runWords (layoutWrites fields) s = .next t ∧ runWords (layoutWrites fields) s' = .next t' ∧
        t.buffer = t'.buffer

/-! ### The symbol layer -/

/-- R87: for a validated exhaustive specifier every pattern decodes to the symbol bound to it, and the buffer is only
read. -/
def Obligations.ExhaustiveDecodeNeverFails : Prop :=
  ∀ (σ : Type) (p : SymbolSpecifier σ) (s : State) (idx : BitIndex), p.kind = .exhaustive → p.validate = .ok () →
    s.running → s.inRange idx.toNat p.width →
      ∃ x t, decodeExhaustive idx p s = (.symbol x, .next t) ∧
        (x, fieldValue s.buffer idx.toNat p.width) ∈ p.table ∧ t.buffer = s.buffer ∧ t.running

/-- R88: an open specifier's decode is the symbol bound to the value read, or `Unrecognized` with that raw value. (That the
open decode answers for an exhaustive specifier as well is the model's choice, log 14.) -/
def Obligations.OpenDecodeIsTotal : Prop :=
  ∀ (σ : Type) (p : SymbolSpecifier σ) (s : State) (idx : BitIndex) (r : Nat), p.validate = .ok () → s.running →
    s.inRange idx.toNat p.width → r = fieldValue s.buffer idx.toNat p.width →
      ∃ t, t.buffer = s.buffer ∧
        ((∃ x, (x, r) ∈ p.table ∧ decodeOpen idx p s = (.symbol x, .next t)) ∨
         ((∀ x, (x, r) ∉ p.table) ∧
            decodeOpen idx p s = (.unrecognized { width := p.width, raw := r }, .next t)))

/-- R89: a symbol that is encoded decodes to itself, in either flavour. (Of a symbol listed twice, and of a decode called
with a specifier of the other flavour, this is the model's choice, log 14.) -/
def Obligations.EncodedSymbolDecodesToItself : Prop :=
  ∀ (σ : Type) [DecidableEq σ] (p : SymbolSpecifier σ) (x : σ) (s : State) (idx : BitIndex), p.validate = .ok () →
    x ∈ p.table.map Prod.fst → s.Inv → s.running → s.inRange idx.toNat p.width →
      ∃ k t, encodeSymbol idx x p s = some k ∧ k.outcome = .next t ∧ t.running ∧
        (decodeOpen idx p t).1 = .symbol x ∧ (decodeExhaustive idx p t).1 = .symbol x

/-- R87, R88, R95: a decode of a range past the end is the BoundsViolation of its BEXT: a fault of the whole call, in
either flavour. (Of a decode called with a specifier of the other flavour this is the model's choice, log 14.) -/
def Obligations.SymbolDecodeFaultsAsBext : Prop :=
  ∀ (σ : Type) (p : SymbolSpecifier σ) (s : State) (idx : BitIndex), p.validate = .ok () → s.running →
    8 * s.buffer.len.val < idx.toNat + p.width →
      decodeExhaustive idx p s = (.unitFault 0x01#8, .next (s.faulted .boundsViolation)) ∧
      decodeOpen idx p s = (.unitFault 0x01#8, .next (s.faulted .boundsViolation))

/-! ### Assembler -/

/-- R48, R49: an assembled line is the command the table names, 0 in every ignored bit, and a pseudo-command is the
command it expands to. -/
def Obligations.AssembledLines : Prop :=
  ∀ (idx : BitIndex) (w : WidthField) (v : Value) (b : Bool),
    (Asm.bext idx.toNat w.toNat).assemble = some (.bext idx w 0#128) ∧
    (Asm.bins idx.toNat w.toNat v.toNat).assemble = some (.bins idx w v) ∧
    (Asm.btst idx.toNat).assemble = some (.btst idx 1#8 0#128) ∧
    (Asm.bset idx.toNat b.toNat).assemble = some (.bset idx 1#8 (truthResult b)) ∧
    (Asm.read idx.toNat w.toNat).assemble = (Asm.bext idx.toNat w.toNat).assemble ∧
    (Asm.getField idx.toNat w.toNat).assemble = (Asm.bext idx.toNat w.toNat).assemble ∧
    (Asm.write idx.toNat w.toNat v.toNat).assemble = (Asm.bins idx.toNat w.toNat v.toNat).assemble ∧
    (Asm.setField idx.toNat w.toNat v.toNat).assemble = (Asm.bins idx.toNat w.toNat v.toNat).assemble ∧
    (Asm.getBool idx.toNat).assemble = (Asm.btst idx.toNat).assemble ∧
    (Asm.setBool idx.toNat b.toNat).assemble = (Asm.bset idx.toNat b.toNat).assemble
end

