-- ==== Sys2Proof/Laws/Boot.lean ====
section
/-! SUPPORT. What checking declared fields (R110 steps 1 and 2) can do: it answers types exactly when every width is
supported and every specifier validated, and the types have the declared widths. -/

namespace Sys2Proof.Machine

theorem SymbolSpecifier.fieldType_of_validate {σ : Type} {p : SymbolSpecifier σ} (h : p.validate = .ok ()) :
    p.fieldType = .ok (.symbol ⟨p, h⟩) := by
  unfold SymbolSpecifier.fieldType
  split
  · rfl
  · rename_i h'
    rw [h] at h'
    cases h'

theorem SymbolSpecifier.fieldType_ok {σ : Type} {p : SymbolSpecifier σ} {t : FieldType σ} (h : p.fieldType = .ok t) :
    ∃ hv : p.validate = .ok (), t = .symbol ⟨p, hv⟩ := by
  unfold SymbolSpecifier.fieldType at h
  split at h
  · rename_i hv
    exact ⟨hv, (Except.ok.inj h).symm⟩
  · cases h

theorem FieldDeclaration.fieldType_ok {σ : Type} {d : FieldDeclaration σ} {t : FieldType σ} (h : d.fieldType = .ok t) :
    (fieldWidth t).val = declaredWidth d ∧ ∀ p, d = .symbol p → p.validate = .ok () := by
  cases d with
  | numeric w =>
    simp only [FieldDeclaration.fieldType] at h
    split at h
    · cases h; exact ⟨rfl, fun _ hp => by cases hp⟩
    · cases h
  | boolean => cases h; exact ⟨rfl, fun _ hp => by cases hp⟩
  | symbol p =>
    simp only [FieldDeclaration.fieldType] at h
    split at h
    · rename_i hp
      cases h
      obtain ⟨hv, rfl⟩ := SymbolSpecifier.fieldType_ok hp
      exact ⟨rfl, fun _ hq => by cases hq; exact hv⟩
    · cases h

theorem FieldDeclaration.fieldType_exists {σ : Type} {d : FieldDeclaration σ}
    (hw : 1 ≤ declaredWidth d ∧ declaredWidth d ≤ 128) (hv : ∀ p, d = .symbol p → p.validate = .ok ()) :
    ∃ t, d.fieldType = .ok t := by
  cases d with
  | numeric w => exact ⟨_, dif_pos hw⟩
  | boolean => exact ⟨_, rfl⟩
  | symbol p => exact ⟨_, by simp only [FieldDeclaration.fieldType, SymbolSpecifier.fieldType_of_validate (hv p rfl)]; rfl⟩

theorem fieldTypes_ok {σ : Type} {ds : List (FieldDeclaration σ)} {ts : List (FieldType σ)} (h : fieldTypes ds = .ok ts) :
    (ts.map fun t => (fieldWidth t).val) = ds.map declaredWidth ∧ ∀ p, .symbol p ∈ ds → p.validate = .ok () := by
  induction ds generalizing ts with
  | nil => cases h; exact ⟨rfl, fun _ hp => by cases hp⟩
  | cons d rest ih =>
    simp only [fieldTypes] at h
    split at h
    · cases h
    · cases h
    · rename_i hd hr
      cases h
      obtain ⟨hw, hv⟩ := FieldDeclaration.fieldType_ok hd
      obtain ⟨hws, hvs⟩ := ih hr
      refine ⟨by simp [hw, hws], fun p hp => ?_⟩
      rcases List.mem_cons.mp hp with hp | hp
      · exact hv p hp.symm
      · exact hvs p hp

theorem fieldTypes_exists {σ : Type} {ds : List (FieldDeclaration σ)}
    (hw : ∀ d ∈ ds, 1 ≤ declaredWidth d ∧ declaredWidth d ≤ 128) (hv : ∀ p, .symbol p ∈ ds → p.validate = .ok ()) :
    ∃ ts, fieldTypes ds = .ok ts := by
  induction ds with
  | nil => exact ⟨_, rfl⟩
  | cons d rest ih =>
    obtain ⟨t, ht⟩ := FieldDeclaration.fieldType_exists (hw d List.mem_cons_self)
      fun p hp => hv p (List.mem_cons.mpr (.inl hp.symm))
    obtain ⟨ts, hts⟩ := ih (fun d hd => hw d (List.mem_cons_of_mem _ hd)) fun p hp => hv p (List.mem_cons_of_mem _ hp)
    exact ⟨t :: ts, by simp only [fieldTypes, ht, hts]⟩

end Sys2Proof.Machine
end

