-- ==== Sys2Proof/Laws/State.lean ====
section
/-! SUPPORT. One lemma per field per update of State, so that no later proof unfolds a record update. -/

namespace Sys2Proof.Machine

variable (s : State) (st : BitVec 8) (r : Value) (c : FaultCause) (cw : CommandWord) (L : Config.BufferLength)

@[simp] theorem respond_buffer : (respond st r s).buffer = s.buffer := rfl
@[simp] theorem respond_fcause : (respond st r s).fcause = s.fcause := rfl
@[simp] theorem respond_inputs : (respond st r s).inputs = s.inputs := rfl
@[simp] theorem respond_responses :
    (respond st r s).responses = s.responses ++ [{ status := st, result := r }] := rfl

@[simp] theorem raiseFault_buffer : (raiseFault c s).buffer = s.buffer := rfl
@[simp] theorem raiseFault_fcause : (raiseFault c s).fcause = c.code := rfl
@[simp] theorem raiseFault_inputs : (raiseFault c s).inputs = s.inputs := rfl
@[simp] theorem raiseFault_responses :
    (raiseFault c s).responses = s.responses ++ [{ status := c.code, result := 0#128 }] := rfl

@[simp] theorem applyReset_len : (applyReset s).buffer.len = s.buffer.len := rfl
@[simp] theorem applyReset_bytes : (applyReset s).buffer.bytes = [] := rfl
@[simp] theorem applyReset_fcause : (applyReset s).fcause = 0x00#8 := rfl
@[simp] theorem applyReset_inputs : (applyReset s).inputs = s.inputs := rfl
@[simp] theorem applyReset_responses : (applyReset s).responses = s.responses := rfl

@[simp] theorem presentNext_buffer : (presentNext cw s).buffer = s.buffer := rfl
@[simp] theorem presentNext_fcause : (presentNext cw s).fcause = s.fcause := rfl
@[simp] theorem presentNext_inputs : (presentNext cw s).inputs = .command cw :: s.inputs := rfl
@[simp] theorem presentNext_responses : (presentNext cw s).responses = s.responses := rfl

@[simp] theorem zeroed_buffer : (State.zeroed L).buffer = { len := L, bytes := [] } := rfl
@[simp] theorem zeroed_fcause : (State.zeroed L).fcause = 0x00#8 := rfl
@[simp] theorem zeroed_inputs : (State.zeroed L).inputs = [] := rfl
@[simp] theorem zeroed_responses : (State.zeroed L).responses = [] := rfl

@[simp] theorem answered_buffer : (s.answered r).buffer = s.buffer := rfl
@[simp] theorem answered_fcause : (s.answered r).fcause = s.fcause := rfl
@[simp] theorem answered_inputs : (s.answered r).inputs = s.inputs := rfl
@[simp] theorem answered_responses :
    (s.answered r).responses = s.responses ++ [{ status := statusOk, result := r }] := rfl

@[simp] theorem faulted_buffer : (s.faulted c).buffer = s.buffer := rfl
@[simp] theorem faulted_fcause : (s.faulted c).fcause = c.code := rfl
@[simp] theorem faulted_inputs : (s.faulted c).inputs = s.inputs := rfl
@[simp] theorem faulted_responses :
    (s.faulted c).responses = s.responses ++ [{ status := c.code, result := 0#128 }] := rfl

/-- Two states with the same fields are the same state. -/
theorem State.eq_of_fields {s t : State} (hb : s.buffer = t.buffer) (hf : s.fcause = t.fcause)
    (hi : s.inputs = t.inputs) (hr : s.responses = t.responses) : s = t := by
  cases s; cases t; simp_all

/-- No cause code is 0x00: a fault always halts (R97, R99). -/
theorem FaultCause.code_ne_ok : c.code ≠ statusOk := by cases c <;> decide

theorem FaultCause.code_legal : fcauseLegal c.code = true := by cases c <;> decide

theorem halted_eq_false_iff : s.halted = false ↔ s.running := by
  simp [State.halted, State.running]

theorem halted_eq_true_iff : s.halted = true ↔ ¬ s.running := by
  simp [State.halted, State.running]

end Sys2Proof.Machine
end

