-- ==== Sys2Proof/Laws/Memory.lean ====
section
/-! SUPPORT. The bytes of the buffer: a read after a write, the canonical form, and extensionality. -/

namespace Sys2Proof.Machine

theorem Memory.wfBetween_mono {lo lo' hi : Nat} {m : Memory} (h : Memory.wfBetween lo hi m = true) (hl : lo' ≤ lo) :
    Memory.wfBetween lo' hi m = true := by
  cases m with
  | nil => rfl
  | cons e rest =>
    obtain ⟨a, b⟩ := e
    simp only [Memory.wfBetween, Bool.and_eq_true, decide_eq_true_eq] at h ⊢
    exact ⟨⟨⟨by omega, h.1.1.2⟩, h.1.2⟩, h.2⟩

theorem Memory.read_of_lt {lo hi x : Nat} {m : Memory} (h : Memory.wfBetween lo hi m = true) (hx : x < lo) :
    Memory.read m x = Memory.unlisted := by
  induction m generalizing lo with
  | nil => rfl
  | cons e rest ih =>
    obtain ⟨a, b⟩ := e
    simp only [Memory.wfBetween, Bool.and_eq_true, decide_eq_true_eq] at h
    simp only [Memory.read]
    rw [if_neg (by omega)]
    exact ih h.2 (by omega)

/-- Outside the buffer's addresses nothing is listed. -/
theorem Memory.read_of_ge {lo hi x : Nat} {m : Memory} (h : Memory.wfBetween lo hi m = true) (hx : hi ≤ x) :
    Memory.read m x = Memory.unlisted := by
  induction m generalizing lo with
  | nil => rfl
  | cons e rest ih =>
    obtain ⟨a, b⟩ := e
    simp only [Memory.wfBetween, Bool.and_eq_true, decide_eq_true_eq] at h
    simp only [Memory.read]
    rw [if_neg (by omega)]
    exact ih h.2

theorem Memory.read_write {lo hi : Nat} {m : Memory} (h : Memory.wfBetween lo hi m = true) (x : Nat) (v : Byte)
    (y : Nat) : Memory.read (Memory.write m x v) y = if y = x then v else Memory.read m y := by
  induction m generalizing lo with
  | nil =>
    by_cases hv : v = Memory.unlisted <;> by_cases hy : y = x <;> simp [Memory.write, Memory.read, hv, hy]
  | cons e rest ih =>
    obtain ⟨a, b⟩ := e
    simp only [Memory.wfBetween, Bool.and_eq_true, decide_eq_true_eq] at h
    have below : ∀ z, z ≤ a → Memory.read rest z = Memory.unlisted := fun z hz => Memory.read_of_lt h.2 (by omega)
    simp only [Memory.write]
    split
    · rename_i hxa
      by_cases hy : y = x
      · subst hy
        have hne : y ≠ a := by omega
        by_cases hv : v = Memory.unlisted <;> simp [Memory.read, hv, hne, below y (by omega)]
      · by_cases hv : v = Memory.unlisted <;> simp [Memory.read, hv, hy]
    · split
      · rename_i hxa
        subst hxa
        by_cases hy : y = x
        · subst hy
          by_cases hv : v = Memory.unlisted <;> simp [Memory.read, hv, below y (le_refl _)]
        · by_cases hv : v = Memory.unlisted <;> simp [Memory.read, hv, hy]
      · rename_i h1 h2
        simp only [Memory.read, ih h.2]
        by_cases hya : y = a
        · subst hya
          rw [if_pos rfl, if_neg (fun e => h2 e.symm), if_pos rfl]
        · rw [if_neg hya, if_neg hya]

theorem Memory.wfBetween_write {lo hi x : Nat} {m : Memory} (v : Byte) (h : Memory.wfBetween lo hi m = true)
    (hl : lo ≤ x) (hx : x < hi) : Memory.wfBetween lo hi (Memory.write m x v) = true := by
  induction m generalizing lo with
  | nil => by_cases hv : v = Memory.unlisted <;> simp [Memory.write, Memory.wfBetween, hv, hl, hx]
  | cons e rest ih =>
    obtain ⟨a, b⟩ := e
    have hfull := h
    simp only [Memory.wfBetween, Bool.and_eq_true, decide_eq_true_eq] at h
    have hrest : Memory.wfBetween lo hi rest = true := Memory.wfBetween_mono h.2 (by omega)
    simp only [Memory.write]
    split
    · rename_i hxa
      split
      · exact hfull
      · rename_i hv
        simp only [Memory.wfBetween, Bool.and_eq_true, decide_eq_true_eq]
        exact ⟨⟨⟨hl, hx⟩, hv⟩, ⟨⟨by omega, h.1.1.2⟩, h.1.2⟩, h.2⟩
    · split
      · rename_i hxa
        subst hxa
        split
        · exact hrest
        · rename_i hv
          simp only [Memory.wfBetween, Bool.and_eq_true, decide_eq_true_eq]
          exact ⟨⟨⟨hl, hx⟩, hv⟩, h.2⟩
      · simp only [Memory.wfBetween, Bool.and_eq_true, decide_eq_true_eq]
        exact ⟨h.1, ih h.2 (by omega)⟩

/-- Canonical memories that read alike are the same list. -/
theorem Memory.ext_of_wf {lo hi : Nat} {m m' : Memory} (h : Memory.wfBetween lo hi m = true)
    (h' : Memory.wfBetween lo hi m' = true) (hr : ∀ a, Memory.read m a = Memory.read m' a) : m = m' := by
  induction m generalizing lo m' with
  | nil =>
    cases m' with
    | nil => rfl
    | cons e rest =>
      obtain ⟨a, b⟩ := e
      simp only [Memory.wfBetween, Bool.and_eq_true, decide_eq_true_eq] at h'
      have := hr a
      simp only [Memory.read, if_pos] at this
      exact absurd this.symm h'.1.2
  | cons e rest ih =>
    obtain ⟨a, b⟩ := e
    simp only [Memory.wfBetween, Bool.and_eq_true, decide_eq_true_eq] at h
    cases m' with
    | nil =>
      have := hr a
      simp only [Memory.read, if_pos] at this
      exact absurd this h.1.2
    | cons e' rest' =>
      obtain ⟨a', b'⟩ := e'
      simp only [Memory.wfBetween, Bool.and_eq_true, decide_eq_true_eq] at h'
      have haa : a = a' := by
        rcases Nat.lt_trichotomy a a' with hlt | heq | hgt
        · have := hr a
          simp only [Memory.read, if_pos, if_neg (show ¬ a = a' by omega)] at this
          rw [Memory.read_of_lt h'.2 (by omega)] at this
          exact absurd this h.1.2
        · exact heq
        · have := hr a'
          simp only [Memory.read, if_pos, if_neg (show ¬ a' = a by omega)] at this
          rw [Memory.read_of_lt h.2 (by omega)] at this
          exact absurd this.symm h'.1.2
      subst haa
      have hbb : b = b' := by simpa [Memory.read] using hr a
      subst hbb
      have : rest = rest' := by
        refine ih h.2 h'.2 fun x => ?_
        by_cases hx : x = a
        · subst hx
          rw [Memory.read_of_lt h.2 (by omega), Memory.read_of_lt h'.2 (by omega)]
        · simpa [Memory.read, hx] using hr x
      rw [this]

/-! ### The buffer -/

theorem Buffer.memRead_of_lt {B : Buffer} {a : Nat} (h : a < B.len.val) : B.memRead a = .ok (B.byteAt a) :=
  if_pos h

theorem Buffer.memWrite_of_lt {B : Buffer} {a : Nat} (v : Byte) (h : a < B.len.val) :
    B.memWrite a v = .ok { B with bytes := Memory.write B.bytes a v } :=
  if_pos h

/-- Everything a byte write does: the length stays, the canonical form stays, and only that byte changes. -/
theorem Buffer.memWrite_spec {B B' : Buffer} {a : Nat} {v : Byte} (hB : B.wf = true) (h : B.memWrite a v = .ok B') :
    B'.len = B.len ∧ B'.wf = true ∧ ∀ x, B'.byteAt x = if x = a then v else B.byteAt x := by
  unfold Buffer.memWrite at h
  split at h
  · rename_i ha
    cases h
    exact ⟨rfl, Memory.wfBetween_write v hB (Nat.zero_le _) ha, fun x => Memory.read_write hB a v x⟩
  · cases h

theorem Buffer.bitAt_eq (B : Buffer) (j : Nat) : B.bitAt j = (B.byteAt (j / 8)).toNat.testBit (j % 8) := rfl

/-- A byte is its eight bits. -/
theorem Buffer.byteAt_eq_of_bits {B B' : Buffer} {a : Nat}
    (h : ∀ j, j / 8 = a → B.bitAt j = B'.bitAt j) : B.byteAt a = B'.byteAt a := by
  apply BitVec.eq_of_toNat_eq
  apply Nat.eq_of_testBit_eq
  intro k
  by_cases hk : k < 8
  · have := h (8 * a + k) (by omega)
    simpa [Buffer.bitAt, show (8 * a + k) / 8 = a by omega, show (8 * a + k) % 8 = k by omega] using this
  · have e : ∀ b : Byte, b.toNat.testBit k = false := fun b =>
      Nat.testBit_lt_two_pow (lt_of_lt_of_le b.isLt (Nat.pow_le_pow_right (by omega) (by omega)))
    rw [e, e]

/-- Canonical buffers of one length with equal bits are equal. -/
theorem Buffer.ext_of_bits {B B' : Buffer} (hB : B.wf = true) (hB' : B'.wf = true) (hl : B.len = B'.len)
    (h : ∀ j, B.bitAt j = B'.bitAt j) : B = B' := by
  obtain ⟨l, m⟩ := B
  obtain ⟨l', m'⟩ := B'
  cases hl
  congr 1
  exact Memory.ext_of_wf hB hB' fun a => Buffer.byteAt_eq_of_bits (B := ⟨l, m⟩) (B' := ⟨l, m'⟩) fun j _ => h j

end Sys2Proof.Machine
end

