-- ==== Sys2Proof/Laws/ShiftMask.lean ====
section
/-! SUPPORT. The shift-and-mask unit at the level of bits: what each primitive does to bit `k`, and once for `extract` and
for `insert` everything they can do. -/

namespace Sys2Proof.Machine

theorem lowMask_eq (c : Nat) : lowMask c = 2 ^ c - 1 := by simp [lowMask, Nat.shiftLeft_eq]

theorem testBit_lowMask (c k : Nat) : (lowMask c).testBit k = decide (k < c) := by
  rw [lowMask_eq, Nat.testBit_two_pow_sub_one]

theorem testBit_extractChunk (b : Byte) (off c k : Nat) :
    (extractChunk b off c).testBit k = (decide (k < c) && b.toNat.testBit (off + k)) := by
  simp [extractChunk, Nat.testBit_and, testBit_lowMask, Nat.testBit_shiftRight, Bool.and_comm]

theorem testBit_chunkMask (off c k : Nat) :
    (chunkMask off c).testBit k = decide (off ≤ k ∧ k < off + c) := by
  simp only [chunkMask, Nat.testBit_shiftLeft, testBit_lowMask]
  by_cases h : off ≤ k
  · simp only [h, decide_true, Bool.true_and, true_and]
    exact decide_eq_decide.mpr (by omega)
  · simp [h]

/-- The mask never leaves the byte (R54). -/
theorem chunkMask_lt {off c : Nat} (h : off + c ≤ 8) : chunkMask off c < 256 := by
  apply Nat.lt_pow_two_of_testBit (n := 8)
  intro k hk
  rw [testBit_chunkMask]
  exact decide_eq_false (by omega)

theorem testBit_not8 {m : Nat} (hm : m < 256) (k : Nat) :
    (not8 m).testBit k = (decide (k < 8) && !m.testBit k) := by
  have : not8 m = 2 ^ 8 - (m + 1) := by unfold not8; omega
  rw [this, Nat.testBit_two_pow_sub_succ hm]

theorem testBit_byte_of_ge (b : Byte) {k : Nat} (hk : 8 ≤ k) : b.toNat.testBit k = false :=
  Nat.testBit_lt_two_pow (lt_of_lt_of_le b.isLt (Nat.pow_le_pow_right (by omega) (by omega)))

/-- `insert_chunk` changes the bits of the chunk and no other (R55). -/
theorem testBit_insertChunk (b : Byte) {off c : Nat} (v : Nat) (h : off + c ≤ 8) (k : Nat) :
    (insertChunk b off c v).toNat.testBit k =
      if off ≤ k ∧ k < off + c then v.testBit (k - off) else b.toNat.testBit k := by
  by_cases hk : k < 8
  · simp only [insertChunk, BitVec.toNat_ofNat, Nat.testBit_mod_two_pow, hk, decide_true, Bool.true_and,
      Nat.testBit_or, Nat.testBit_and, testBit_not8 (chunkMask_lt h), testBit_chunkMask, Nat.testBit_shiftLeft,
      testBit_lowMask]
    by_cases h1 : off ≤ k
    · by_cases h2 : k < off + c
      · have : k - off < c := by omega
        simp [h1, h2, this]
      · have : ¬ k - off < c := by omega
        simp [h2, this]
    · simp [h1]
  · rw [testBit_byte_of_ge _ (by omega), if_neg (by omega), testBit_byte_of_ge _ (by omega)]

/-! ### The walk -/

/-- One turn of the loop (R50). -/
theorem walk_succ (fuel i remaining shift : Nat) :
    walk (fuel + 1) i remaining shift =
      { byte := i / 8, off := i % 8, c := min (8 - i % 8) remaining, shift := shift } ::
        (if remaining - min (8 - i % 8) remaining = 0 then []
         else walk fuel (i + min (8 - i % 8) remaining) (remaining - min (8 - i % 8) remaining)
          (shift + min (8 - i % 8) remaining)) := rfl

/-- Every chunk lies in one byte, and that byte holds a bit of the range (R51 b, e, i). -/
theorem mem_walk {fuel i remaining shift : Nat} {k : Chunk} (h1 : 1 ≤ remaining) (h2 : remaining ≤ fuel)
    (hk : k ∈ walk fuel i remaining shift) :
    1 ≤ k.c ∧ k.off + k.c ≤ 8 ∧ i ≤ 8 * k.byte + k.off ∧ 8 * k.byte + k.off + k.c ≤ i + remaining ∧
      k.shift + i = shift + (8 * k.byte + k.off) := by
  induction fuel generalizing i remaining shift with
  | zero => omega
  | succ n ih =>
    rw [walk_succ] at hk
    rcases List.mem_cons.mp hk with rfl | hk
    · dsimp only
      omega
    · split at hk
      · cases hk
      · have := ih (by omega) (by omega) hk
        omega

/-! ### extract -/

theorem extractWalk_walk (B : Buffer) {fuel i remaining shift : Nat} (acc : Nat) (h1 : 1 ≤ remaining)
    (h2 : remaining ≤ fuel) (h3 : i + remaining ≤ 8 * B.len.val) :
    ∃ r, extractWalk B (walk fuel i remaining shift) acc = .ok r ∧
      ∀ k, r.testBit k =
        (acc.testBit k || (decide (shift ≤ k ∧ k < shift + remaining) && B.bitAt (i + (k - shift)))) := by
  induction fuel generalizing i remaining shift acc with
  | zero => omega
  | succ n ih =>
    rw [walk_succ]
    set c := min (8 - i % 8) remaining with hc
    have hb : i / 8 < B.len.val := by omega
    simp only [extractWalk, Buffer.memRead_of_lt hb]
    have head : ∀ k, (acc ||| extractChunk (B.byteAt (i / 8)) (i % 8) c <<< shift).testBit k =
        (acc.testBit k || (decide (shift ≤ k ∧ k < shift + c) && B.bitAt (i + (k - shift)))) := by
      intro k
      rw [Nat.testBit_or, Nat.testBit_shiftLeft, testBit_extractChunk]
      by_cases hk : shift ≤ k ∧ k < shift + c
      · have e1 : (i + (k - shift)) / 8 = i / 8 := by omega
        have e2 : (i + (k - shift)) % 8 = i % 8 + (k - shift) := by omega
        have e3 : k - shift < c := by omega
        simp [hk, e3, Buffer.bitAt, e1, e2]
      · by_cases hs : shift ≤ k
        · have e3 : ¬ k - shift < c := by omega
          simp [hk, e3]
        · simp [hs]
    split
    · rename_i hz
      refine ⟨_, rfl, fun k => ?_⟩
      rw [head k, show remaining = c by omega]
    · rename_i hz
      obtain ⟨r, hr, hbits⟩ := ih (i := i + c) (remaining := remaining - c) (shift := shift + c)
        (acc ||| extractChunk (B.byteAt (i / 8)) (i % 8) c <<< shift) (by omega) (by omega) (by omega)
      refine ⟨r, hr, fun k => ?_⟩
      rw [hbits k, head k]
      by_cases hk : shift ≤ k ∧ k < shift + c
      · have : shift ≤ k ∧ k < shift + remaining := by omega
        have e : ¬ (shift + c ≤ k ∧ k < shift + c + (remaining - c)) := by omega
        simp [hk, this, e]
      · by_cases hk' : shift + c ≤ k ∧ k < shift + c + (remaining - c)
        · have e1 : shift ≤ k ∧ k < shift + remaining := by omega
          have e2 : i + c + (k - (shift + c)) = i + (k - shift) := by omega
          rw [decide_eq_false hk, decide_eq_true hk', decide_eq_true e1, e2]
          simp
        · have e1 : ¬ (shift ≤ k ∧ k < shift + remaining) := by omega
          rw [decide_eq_false hk, decide_eq_false hk', decide_eq_false e1]
          simp

theorem bitsValue_lt (bit : Nat → Bool) (i w : Nat) : bitsValue bit i w < 2 ^ w := by
  induction w with
  | zero => simp [bitsValue]
  | succ n ih =>
    simp only [bitsValue, Nat.pow_succ]
    have : (bit (i + n)).toNat ≤ 1 := Bool.toNat_le _
    have : (bit (i + n)).toNat * 2 ^ n ≤ 1 * 2 ^ n := Nat.mul_le_mul_right _ this
    omega

/-- Bit `k` of a field is bit index `i + k` (R22). -/
theorem testBit_bitsValue (bit : Nat → Bool) (i w k : Nat) :
    (bitsValue bit i w).testBit k = (decide (k < w) && bit (i + k)) := by
  induction w with
  | zero => simp [bitsValue]
  | succ n ih =>
    rw [bitsValue, Nat.add_comm, Nat.mul_comm, Nat.testBit_two_pow_mul_add _ (bitsValue_lt bit i n)]
    by_cases hk : k < n
    · simp [hk, ih, show k < n + 1 by omega]
    · by_cases hkn : k = n
      · subst hkn
        cases bit (i + k) <;> simp
      · have : ¬ k < n + 1 := by omega
        rw [if_neg hk, decide_eq_false this, Bool.false_and]
        exact Nat.testBit_lt_two_pow (lt_of_le_of_lt (Bool.toNat_le _)
          (Nat.one_lt_two_pow (by omega)))

/-- `extract` in range reads the field's value at the level of bits (R22, R58), and no address outside the buffer. -/
theorem extractField_eq (B : Buffer) {i w : Nat} (hw : 1 ≤ w) (h : i + w ≤ 8 * B.len.val) :
    extractField B i w = .ok (fieldValue B i w) := by
  obtain ⟨r, hr, hbits⟩ := extractWalk_walk B (fuel := w) (i := i) (remaining := w) (shift := 0) 0 hw (le_refl _) h
  rw [extractField, chunks, hr]
  congr 1
  apply Nat.eq_of_testBit_eq
  intro k
  rw [hbits k, testBit_bitsValue]
  simp

/-! ### insert -/

theorem bitAt_of_byteAt {B B' : Buffer} {a : Nat} {v : Byte} (h : ∀ x, B'.byteAt x = if x = a then v else B.byteAt x)
    (j : Nat) : B'.bitAt j = if j / 8 = a then v.toNat.testBit (j % 8) else B.bitAt j := by
  simp only [Buffer.bitAt, h]
  split <;> rfl

theorem insertWalk_walk {B : Buffer} {fuel i remaining shift : Nat} (v : Nat) (hB : B.wf = true) (h1 : 1 ≤ remaining)
    (h2 : remaining ≤ fuel) (h3 : i + remaining ≤ 8 * B.len.val) :
    ∃ B', insertWalk (walk fuel i remaining shift) B v = .ok B' ∧ B'.len = B.len ∧ B'.wf = true ∧
      ∀ j, B'.bitAt j = if i ≤ j ∧ j < i + remaining then v.testBit (j - i) else B.bitAt j := by
  induction fuel generalizing i remaining shift v B with
  | zero => omega
  | succ n ih =>
    rw [walk_succ]
    set c := min (8 - i % 8) remaining with hc
    have hb : i / 8 < B.len.val := by omega
    obtain ⟨hlen, hwf, hbyte⟩ := Buffer.memWrite_spec hB
      (Buffer.memWrite_of_lt (insertChunk (B.byteAt (i / 8)) (i % 8) c v) hb)
    simp only [insertWalk, Buffer.memRead_of_lt hb, Buffer.memWrite_of_lt _ hb]
    set B₁ : Buffer := { B with bytes := Memory.write B.bytes (i / 8) (insertChunk (B.byteAt (i / 8)) (i % 8) c v) }
    have head : ∀ j, B₁.bitAt j = if i ≤ j ∧ j < i + c then v.testBit (j - i) else B.bitAt j := by
      intro j
      rw [bitAt_of_byteAt hbyte j, testBit_insertChunk _ _ (by omega)]
      by_cases hj : j / 8 = i / 8
      · by_cases hr : i ≤ j ∧ j < i + c
        · rw [if_pos hj, if_pos (by omega), if_pos hr, show j % 8 - i % 8 = j - i by omega]
        · rw [if_pos hj, if_neg (by omega), if_neg hr, Buffer.bitAt, hj]
      · rw [if_neg hj, if_neg (by omega)]
    split
    · rename_i hz
      exact ⟨B₁, rfl, hlen, hwf, by simpa [show remaining = c by omega] using head⟩
    · rename_i hz
      obtain ⟨B', hr, hl', hwf', hbits⟩ := ih (B := B₁) (i := i + c) (remaining := remaining - c) (shift := shift + c)
        (v >>> c) hwf (by omega) (by omega) (by rw [hlen]; omega)
      refine ⟨B', hr, hl'.trans hlen, hwf', fun j => ?_⟩
      rw [hbits j, head j]
      by_cases hj : i + c ≤ j ∧ j < i + c + (remaining - c)
      · rw [if_pos hj, if_pos (by omega), Nat.testBit_shiftRight]
        congr 1
        omega
      · rw [if_neg hj]
        by_cases hj' : i ≤ j ∧ j < i + c
        · rw [if_pos hj', if_pos (by omega)]
        · rw [if_neg hj', if_neg (by omega)]

/-- Everything `insert` does in range (R59): it accesses no address outside the buffer, keeps the length and the
canonical form, stores the low `w` bits of the value in the range, and changes no other bit. -/
theorem insertField_spec {B : Buffer} {i w : Nat} (v : Nat) (hB : B.wf = true) (hw : 1 ≤ w)
    (h : i + w ≤ 8 * B.len.val) :
    ∃ B', insertField B i w v = .ok B' ∧ B'.len = B.len ∧ B'.wf = true ∧
      ∀ j, B'.bitAt j = if i ≤ j ∧ j < i + w then v.testBit (j - i) else B.bitAt j :=
  insertWalk_walk v hB hw (le_refl _) h

/-- `insert` in range stops at no address, whatever the form of the buffer. -/
theorem insertField_ok {B : Buffer} {i w : Nat} (v : Nat) (hw : 1 ≤ w) (h : i + w ≤ 8 * B.len.val) :
    ∃ B', insertField B i w v = .ok B' ∧ B'.len = B.len := by
  suffices ∀ (fuel i remaining shift v : Nat) (B : Buffer), 1 ≤ remaining → remaining ≤ fuel →
      i + remaining ≤ 8 * B.len.val → ∃ B', insertWalk (walk fuel i remaining shift) B v = .ok B' ∧ B'.len = B.len from
    this w i w 0 v B hw (le_refl _) h
  intro fuel
  induction fuel with
  | zero => intros; omega
  | succ n ih =>
    intro i remaining shift v B h1 h2 h3
    have hb : i / 8 < B.len.val := by omega
    rw [walk_succ]
    simp only [insertWalk, Buffer.memRead_of_lt hb, Buffer.memWrite_of_lt _ hb]
    split
    · exact ⟨_, rfl, rfl⟩
    · exact ih _ _ _ _ _ (by omega) (by omega) (by dsimp only; omega)

end Sys2Proof.Machine
end

