-- ==== Sys2Proof/Laws/Command.lean ====
section
/-! SUPPORT. What a command, a presented word and a step can do, said once. -/

namespace Sys2Proof.Machine

/-! ### The Boolean forms of the datapath -/

theorem testBitOf_eq (B : Buffer) {i : Nat} (h : i + 1 ≤ 8 * B.len.val) : testBitOf B i = .ok (B.bitAt i) := by
  rw [testBitOf, Buffer.memRead_of_lt (by omega)]
  simp only [Except.map, Buffer.bitAt]
  congr 1
  rw [Nat.testBit, Nat.and_comm]

theorem testBit_setBit (b : Byte) {off : Nat} (t : Bool) (ho : off < 8) (k : Nat) :
    (BitVec.ofNat 8 (if t then b.toNat ||| (1 <<< off) else b.toNat &&& not8 (1 <<< off))).toNat.testBit k =
      if k = off then t else b.toNat.testBit k := by
  have hm : 1 <<< off < 256 := by
    rw [Nat.one_shiftLeft]
    exact Nat.pow_lt_pow_right (a := 2) (n := 8) (by omega) ho
  have hbit : (1 <<< off).testBit k = decide (off = k) := by rw [Nat.one_shiftLeft, Nat.testBit_two_pow]
  rw [BitVec.toNat_ofNat, Nat.testBit_mod_two_pow]
  by_cases hk : k < 8
  · cases t
    · by_cases h : k = off
      · subst h
        simp [Nat.testBit_and, testBit_not8 hm, hbit]
      · simp [Nat.testBit_and, testBit_not8 hm, hbit, hk, h, show ¬ off = k from fun e => h e.symm]
    · by_cases h : k = off
      · subst h
        simp [Nat.testBit_or, hbit, hk]
      · simp [Nat.testBit_or, hbit, hk, h, show ¬ off = k from fun e => h e.symm]
  · have hne : ¬ k = off := by omega
    simp [hk, hne, testBit_byte_of_ge b (k := k) (by omega)]

/-- Everything the Boolean write does in range (R70). -/
theorem writeBit_spec {B : Buffer} {i : Nat} (t : Bool) (hB : B.wf = true) (h : i + 1 ≤ 8 * B.len.val) :
    ∃ B', writeBit B i t = .ok B' ∧ B'.len = B.len ∧ B'.wf = true ∧
      ∀ j, B'.bitAt j = if j = i then t else B.bitAt j := by
  have hb : i / 8 < B.len.val := by omega
  simp only [writeBit, Buffer.memRead_of_lt hb]
  refine ⟨_, Buffer.memWrite_of_lt _ hb, ?_⟩
  obtain ⟨hl, hwf, hbyte⟩ := Buffer.memWrite_spec hB (Buffer.memWrite_of_lt _ hb)
  refine ⟨hl, hwf, fun j => ?_⟩
  rw [bitAt_of_byteAt hbyte j, testBit_setBit _ t (Nat.mod_lt _ (by omega))]
  by_cases hj : j = i
  · subst hj; simp
  · by_cases h8 : j / 8 = i / 8
    · rw [if_pos h8, if_neg (by omega), if_neg hj, Buffer.bitAt, h8]
    · rw [if_neg h8, if_neg hj]

theorem writeBit_ok {B : Buffer} {i : Nat} (t : Bool) (h : i + 1 ≤ 8 * B.len.val) :
    ∃ B', writeBit B i t = .ok B' ∧ B'.len = B.len := by
  have hb : i / 8 < B.len.val := by omega
  simp only [writeBit, Buffer.memRead_of_lt hb]
  exact ⟨_, Buffer.memWrite_of_lt _ hb, rfl⟩

/-! ### The frame of a command -/

section
variable {widthLegal : Bool} {i w : Nat} {effect : Host.Outcome State Fault Refusal} {s : State}

theorem runCommand_halted (h : s.halted = true) : runCommand widthLegal i w effect s = .next s := by
  simp [runCommand, h]

theorem runCommand_illegalWidth (h : s.halted = false) (hw : widthLegal = false) :
    runCommand widthLegal i w effect s = .next (raiseFault .illegalWidth s) := by
  simp [runCommand, h, hw]

theorem runCommand_bounds (h : s.halted = false) (hw : widthLegal = true) (hb : s.buffer.bits < i + w) :
    runCommand widthLegal i w effect s = .next (raiseFault .boundsViolation s) := by
  simp [runCommand, h, hw, hb]

theorem runCommand_effect (h : s.halted = false) (hw : widthLegal = true) (hb : i + w ≤ s.buffer.bits) :
    runCommand widthLegal i w effect s = effect := by
  simp [runCommand, h, hw, Nat.not_lt.mpr hb]

/-- Every way a command can go (R46, R100). -/
theorem runCommand_cases :
    (s.halted = true ∧ runCommand widthLegal i w effect s = .next s) ∨
    (s.halted = false ∧ widthLegal = false ∧
      runCommand widthLegal i w effect s = .next (raiseFault .illegalWidth s)) ∨
    (s.halted = false ∧ widthLegal = true ∧ s.buffer.bits < i + w ∧
      runCommand widthLegal i w effect s = .next (raiseFault .boundsViolation s)) ∨
    (s.halted = false ∧ widthLegal = true ∧ i + w ≤ s.buffer.bits ∧
      runCommand widthLegal i w effect s = effect) := by
  cases hh : s.halted
  · cases hw : widthLegal
    · exact .inr (.inl ⟨rfl, rfl, runCommand_illegalWidth hh rfl⟩)
    · rcases Nat.lt_or_ge s.buffer.bits (i + w) with hb | hb
      · exact .inr (.inr (.inl ⟨rfl, rfl, hb, runCommand_bounds hh rfl hb⟩))
      · exact .inr (.inr (.inr ⟨rfl, rfl, hb, runCommand_effect hh rfl hb⟩))
  · exact .inl ⟨rfl, runCommand_halted hh⟩

end

theorem rangeWidthLegal_iff (w : Nat) : rangeWidthLegal w = true ↔ 1 ≤ w ∧ w ≤ 128 := by simp [rangeWidthLegal]

theorem bitWidthLegal_iff (w : Nat) : bitWidthLegal w = true ↔ w = 1 := by simp [bitWidthLegal]

/-! ### What a command, a word and a step can do -/

/-- What any command can do to a state: nothing, because the unit is halted; raise a fault; answer a value; or take a
new buffer of the same length, in canonical form if the old one was, and answer 0. -/
inductive CommandEffect (s : State) : State → Prop where
  | silent (h : s.halted = true) : CommandEffect s s
  | faults (h : s.halted = false) (c : FaultCause) : CommandEffect s (raiseFault c s)
  | answers (h : s.halted = false) (v : Value) : CommandEffect s (respond statusOk v s)
  | stores (h : s.halted = false) (B : Buffer) (hl : B.len = s.buffer.len)
      (hwf : s.buffer.wf = true → B.wf = true) : CommandEffect s (respond statusOk 0#128 { s with buffer := B })

/-- Every command answers a next state, and that state is one of these. -/
theorem exec_effect (i : Instr) (s : State) : ∃ t, exec i s = .next t ∧ CommandEffect s t := by
  cases i with
  | bext idx w v =>
    rcases runCommand_cases (widthLegal := rangeWidthLegal (widthOperand w)) (i := bitIndexOperand idx)
      (w := widthOperand w) (s := s) with ⟨h, e⟩ | ⟨h, _, e⟩ | ⟨h, _, _, e⟩ | ⟨h, hw, hb, e⟩
    · exact ⟨_, e, .silent h⟩
    · exact ⟨_, e, .faults h _⟩
    · exact ⟨_, e, .faults h _⟩
    · refine ⟨_, e.trans ?_, .answers h (numberResult (fieldValue s.buffer (bitIndexOperand idx) (widthOperand w)))⟩
      rw [extractField_eq _ ((rangeWidthLegal_iff _).mp hw).1 hb]
      rfl
  | bins idx w v =>
    rcases runCommand_cases (widthLegal := rangeWidthLegal (widthOperand w)) (i := bitIndexOperand idx)
      (w := widthOperand w) (s := s) with ⟨h, e⟩ | ⟨h, _, e⟩ | ⟨h, _, _, e⟩ | ⟨h, hw, hb, e⟩
    · exact ⟨_, e, .silent h⟩
    · exact ⟨_, e, .faults h _⟩
    · exact ⟨_, e, .faults h _⟩
    · have h1 := ((rangeWidthLegal_iff _).mp hw).1
      obtain ⟨B', hB', hl⟩ := insertField_ok (valueOperand v) h1 hb
      refine ⟨_, e.trans ?_, .stores h B' hl fun hwf => ?_⟩
      · rw [hB']; rfl
      · obtain ⟨B'', hB'', _, hwf'', _⟩ := insertField_spec (valueOperand v) hwf h1 hb
        rw [hB'] at hB''
        cases hB''
        exact hwf''
  | btst idx w v =>
    rcases runCommand_cases (widthLegal := bitWidthLegal (widthOperand w)) (i := bitIndexOperand idx)
      (w := 1) (s := s) with ⟨h, e⟩ | ⟨h, _, e⟩ | ⟨h, _, _, e⟩ | ⟨h, hw, hb, e⟩
    · exact ⟨_, e, .silent h⟩
    · exact ⟨_, e, .faults h _⟩
    · exact ⟨_, e, .faults h _⟩
    · refine ⟨_, e.trans ?_, .answers h (truthResult (s.buffer.bitAt (bitIndexOperand idx)))⟩
      rw [testBitOf_eq _ hb]
      rfl
  | bset idx w v =>
    rcases runCommand_cases (widthLegal := bitWidthLegal (widthOperand w)) (i := bitIndexOperand idx)
      (w := 1) (s := s) with ⟨h, e⟩ | ⟨h, _, e⟩ | ⟨h, _, _, e⟩ | ⟨h, hw, hb, e⟩
    · exact ⟨_, e, .silent h⟩
    · exact ⟨_, e, .faults h _⟩
    · exact ⟨_, e, .faults h _⟩
    · obtain ⟨B', hB', hl⟩ := writeBit_ok (truthOperand v) hb
      refine ⟨_, e.trans ?_, .stores h B' hl fun hwf => ?_⟩
      · rw [hB']; rfl
      · obtain ⟨B'', hB'', _, hwf'', _⟩ := writeBit_spec (truthOperand v) hwf hb
        rw [hB'] at hB''
        cases hB''
        exact hwf''

/-- A presented word does what a command can do. -/
theorem presentCommand_effect (cw : CommandWord) (s : State) :
    ∃ t, presentCommand cw s = .next t ∧ CommandEffect s t := by
  unfold presentCommand
  split
  · rename_i h
    exact ⟨_, rfl, .silent h⟩
  · rename_i h
    split
    · exact ⟨_, rfl, .faults (by simpa using h) _⟩
    · exact exec_effect _ s

/-- A step takes the host's next move: there is none, or it is a reset, or it is a command word. -/
theorem step_cases (s : State) :
    (s.inputs = [] ∧ step s = .next s) ∨
    (∃ rest, s.inputs = .reset :: rest ∧ step s = .next (applyReset { s with inputs := rest })) ∨
    (∃ cw rest, s.inputs = .command cw :: rest ∧ step s = presentCommand cw { s with inputs := rest }) := by
  cases h : s.inputs with
  | nil => exact .inl ⟨rfl, by simp [step, nextMove, h]⟩
  | cons m rest =>
    cases m with
    | reset => exact .inr (.inl ⟨rest, rfl, by simp [step, nextMove, h, makeMove]⟩)
    | command cw => exact .inr (.inr ⟨cw, rest, rfl, by simp [step, nextMove, h, makeMove]⟩)

/-- A run takes one step and goes on from there. -/
theorem run_succ_of_step {s t : State} (n : Nat) (h : step s = .next t) :
    Sys2Proof.core.run (n + 1) s = Sys2Proof.core.run n t := by
  have hs : Sys2Proof.core.step s = .next t := h
  simp only [Host.Core.run, hs]

theorem run_zero (s : State) : Sys2Proof.core.run 0 s = .next s := rfl

end Sys2Proof.Machine
end

