-- ==== Sys2Proof/Laws/Decode.lean ====
section
/-! SUPPORT. Packing and unpacking the four fields of format C. -/

namespace Sys2Proof

variable (opc : BitVec 8) (w : WidthField) (idx : BitIndex) (v : Value)

theorem getLsbD_packCommand (k : Nat) :
    (packCommand opc w idx v).getLsbD k =
      if k < 128 then v.getLsbD k
      else if k < 160 then idx.getLsbD (k - 128)
      else if k < 168 then w.getLsbD (k - 160)
      else opc.getLsbD (k - 168) := by
  simp only [packCommand, BitVec.getLsbD_append]
  by_cases h1 : k < 128
  · simp [h1]
  · by_cases h2 : k < 160
    · simp [h1, h2, show k - 128 < 32 by omega]
    · by_cases h3 : k < 168
      · simp [h1, h2, h3, show ¬ k - 128 < 32 by omega, show k - 128 - 32 = k - 160 by omega,
          show k - 160 < 8 by omega]
      · simp [h1, h2, h3, show ¬ k - 128 < 32 by omega, show ¬ k - 128 - 32 < 8 by omega,
          show k - 128 - 32 - 8 = k - 168 by omega]

theorem opcField_packCommand : opcField (packCommand opc w idx v) = opc := by
  apply BitVec.eq_of_getLsbD_eq
  intro k hk
  rw [opcField, BitVec.getLsbD_extractLsb', getLsbD_packCommand]
  simp [hk, show ¬ 168 + k < 128 by omega, show ¬ 168 + k < 160 by omega, show ¬ 168 + k < 168 by omega]

theorem widthField_packCommand : widthField (packCommand opc w idx v) = w := by
  apply BitVec.eq_of_getLsbD_eq
  intro k hk
  rw [widthField, BitVec.getLsbD_extractLsb', getLsbD_packCommand]
  simp [hk, show ¬ 160 + k < 128 by omega, show 160 + k < 168 by omega]

theorem bitIndexField_packCommand : bitIndexField (packCommand opc w idx v) = idx := by
  apply BitVec.eq_of_getLsbD_eq
  intro k hk
  rw [bitIndexField, BitVec.getLsbD_extractLsb', getLsbD_packCommand]
  simp [hk, show 128 + k < 160 by omega]

theorem valueField_packCommand : valueField (packCommand opc w idx v) = v := by
  apply BitVec.eq_of_getLsbD_eq
  intro k hk
  rw [valueField, BitVec.getLsbD_extractLsb', getLsbD_packCommand]
  simp [hk]

/-- The four fields are the whole word: there are no unused bits (R35). -/
theorem packCommand_fields (cw : CommandWord) :
    packCommand (opcField cw) (widthField cw) (bitIndexField cw) (valueField cw) = cw := by
  apply BitVec.eq_of_getLsbD_eq
  intro k hk
  rw [getLsbD_packCommand]
  by_cases h1 : k < 128
  · rw [if_pos h1, valueField, BitVec.getLsbD_extractLsb', decide_eq_true h1, Bool.true_and, Nat.zero_add]
  · by_cases h2 : k < 160
    · rw [if_neg h1, if_pos h2, bitIndexField, BitVec.getLsbD_extractLsb', decide_eq_true (show k - 128 < 32 by omega), Bool.true_and,
        show 128 + (k - 128) = k by omega]
    · by_cases h3 : k < 168
      · rw [if_neg h1, if_neg h2, if_pos h3, widthField, BitVec.getLsbD_extractLsb',
          decide_eq_true (show k - 160 < 8 by omega), Bool.true_and,
          show 160 + (k - 160) = k by omega]
      · rw [if_neg h1, if_neg h2, if_neg h3, opcField, BitVec.getLsbD_extractLsb',
          decide_eq_true (show k - 168 < 8 by omega), Bool.true_and,
          show 168 + (k - 168) = k by omega]

end Sys2Proof
end

