-- ==== Sys2Proof/Laws/PerInstr.lean ====
section
/-! SUPPORT. Statements made per constructor of Instr: the encoder puts the opcode of the table in OPC (R39) and the three
operands, every bit of them, in WIDTH, BITIDX and VALUE (R35). -/

namespace Sys2Proof.Laws.EncodeFields

/-- The opcode of a command's row of the table (R39). -/
def opcode : Instr → Nat
  | .bext _ _ _ => 1
  | .bins _ _ _ => 2
  | .btst _ _ _ => 3
  | .bset _ _ _ => 4

/-- The operands of a command. -/
def operands : Instr → BitIndex × WidthField × Value
  | .bext idx w v => (idx, w, v)
  | .bins idx w v => (idx, w, v)
  | .btst idx w v => (idx, w, v)
  | .bset idx w v => (idx, w, v)

/-- The fields of a command's word are its opcode and its operands. -/
def Statement (i : Instr) : Prop :=
  (opcField (encode i)).toNat = opcode i ∧
    (bitIndexField (encode i), widthField (encode i), valueField (encode i)) = operands i

theorem bext (idx : BitIndex) (w : WidthField) (v : Value) : Statement (.bext idx w v) := by
  simp [Statement, encode, opcode, operands, opcField_packCommand, widthField_packCommand, bitIndexField_packCommand,
    valueField_packCommand, opcBext]

theorem bins (idx : BitIndex) (w : WidthField) (v : Value) : Statement (.bins idx w v) := by
  simp [Statement, encode, opcode, operands, opcField_packCommand, widthField_packCommand, bitIndexField_packCommand,
    valueField_packCommand, opcBins]

theorem btst (idx : BitIndex) (w : WidthField) (v : Value) : Statement (.btst idx w v) := by
  simp [Statement, encode, opcode, operands, opcField_packCommand, widthField_packCommand, bitIndexField_packCommand,
    valueField_packCommand, opcBtst]

theorem bset (idx : BitIndex) (w : WidthField) (v : Value) : Statement (.bset idx w v) := by
  simp [Statement, encode, opcode, operands, opcField_packCommand, widthField_packCommand, bitIndexField_packCommand,
    valueField_packCommand, opcBset]

end Sys2Proof.Laws.EncodeFields
end

