-- ==== Sys2Proof/Tests/Slice0.lean ====
section
/-! SUPPORT. Tests: ill-formed commands, words written out from the encoding tables, one-step tests with the results of the
spec's own examples and vectors, and for every obligation with hypotheses a concrete witness that meets them. -/

namespace Sys2Proof.Tests

open Sys2Proof Sys2Proof.Machine

/-! ### States -/

/-- A running unit of `L` bytes holding these bytes, nothing presented, nothing answered. -/
def unitOf (L : Config.BufferLength) (m : Memory) : State :=
  { buffer := { len := L, bytes := m }, fcause := 0x00#8, inputs := [], responses := [] }

/-- The buffer `A5 5A C3 3C` of the spec's vectors. -/
def unitA5 : State := unitOf ⟨4, by decide⟩ [(0, 0xA5#8), (1, 0x5A#8), (2, 0xC3#8), (3, 0x3C#8)]

/-- Four zero bytes. -/
def unitZero : State := unitOf ⟨4, by decide⟩ []

/-- `unitA5` halted by a BoundsViolation. -/
def unitHalted : State := { unitA5 with fcause := 0x01#8 }

/-- `s` with these moves of the host to come. -/
def presenting (s : State) (ms : List HostMove) : State := { s with inputs := ms }

/-- The word of `BEXT 5, 13`. -/
def wordBext : CommandWord := 0x010D00000005_00000000000000000000000000000000#176

/-- A word of OPC 0x09 and WIDTH 0 (R98's example). -/
def wordIllegal : CommandWord := 0x090000000000_00000000000000000000000000000000#176

/-! ### WellFormed refuses (R44) -/

theorem test_bext_width_0 : (Instr.bext 0#32 0#8 0#128).wellFormed = false := by decide
theorem test_bext_width_129 : (Instr.bext 0#32 129#8 0#128).wellFormed = false := by decide
theorem test_bins_width_0 : (Instr.bins 0#32 0#8 0#128).wellFormed = false := by decide
theorem test_bins_width_255 : (Instr.bins 0#32 255#8 0#128).wellFormed = false := by decide
theorem test_btst_width_2 : (Instr.btst 0#32 2#8 0#128).wellFormed = false := by decide
theorem test_bset_width_0 : (Instr.bset 0#32 0#8 0#128).wellFormed = false := by decide
theorem test_bext_width_128 : (Instr.bext 0#32 128#8 0#128).wellFormed = true := by decide

/-! ### Words written out bit by bit from R35 and R39 -/

/-- BEXT 5, 13: OPC 00000001, WIDTH 00001101, BITIDX 5, VALUE 0 (R63's example). -/
theorem test_decode_bext :
    decode (0b00000001_00001101_00000000000000000000000000000101#48 ++ 0#128) = .ok (.bext 5#32 13#8 0#128) := by rfl

/-- BINS 8, 24, 0xABCDEF (R67's example). -/
theorem test_decode_bins :
    decode (0b00000010_00011000_00000000000000000000000000001000#48 ++
      (0#104 ++ 0b101010111100110111101111#24)) = .ok (.bins 8#32 24#8 0xABCDEF#128) := by rfl

/-- BTST 7 (R65's example). -/
theorem test_decode_btst :
    decode (0b00000011_00000001_00000000000000000000000000000111#48 ++ 0#128) = .ok (.btst 7#32 1#8 0#128) := by rfl

/-- BSET 3, 1 (R70's example). -/
theorem test_decode_bset :
    decode (0b00000100_00000001_00000000000000000000000000000011#48 ++ (0#127 ++ 1#1)) =
      .ok (.bset 3#32 1#8 1#128) := by rfl

/-- The all-zeros word and the all-ones word are illegal (R43). -/
theorem test_decode_zeros_ones :
    decode 0#176 = .error .illegalCommand ∧ decode (BitVec.allOnes 176) = .error .illegalCommand := ⟨rfl, rfl⟩

/-! ### One step each, results from the spec's examples -/

/-- R63: `B = A5 5A C3 3C`, `BEXT 5, 13` answers `OK 0x1AD5`. -/
theorem test_bext_example : exec (.bext 5#32 13#8 0#128) unitA5 = .next (unitA5.answered 0x1AD5#128) := by rfl

/-- R30, R95: in 4 bytes, 29 + 3 is in the buffer and 30 + 3 is not. -/
theorem test_bext_edge :
    exec (.bext 29#32 3#8 0#128) unitA5 = .next (unitA5.answered 1#128) ∧
    exec (.bext 30#32 3#8 0#128) unitA5 = .next (unitA5.faulted .boundsViolation) := ⟨rfl, rfl⟩

/-- R67: `BINS 8, 24, 0xABCDEF` on zeros leaves `00 EF CD AB` (90_conflicts.md C1). -/
theorem test_bins_example :
    exec (.bins 8#32 24#8 0xABCDEF#128) unitZero =
      .next ((unitOf ⟨4, by decide⟩ [(1, 0xEF#8), (2, 0xCD#8), (3, 0xAB#8)]).answered 0#128) := by rfl

/-- R68: `B = FF`, `BINS 2, 4, 0x10` stores 0: `B = C3`. -/
theorem test_bins_oversized :
    exec (.bins 2#32 4#8 0x10#128) (unitOf ⟨1, by decide⟩ [(0, 0xFF#8)]) =
      .next ((unitOf ⟨1, by decide⟩ [(0, 0xC3#8)]).answered 0#128) := by rfl

/-- R65: `B = A5`, `BTST 7` answers 1 and `BTST 6` answers 0. -/
theorem test_btst_example :
    exec (.btst 7#32 1#8 0#128) unitA5 = .next (unitA5.answered 1#128) ∧
    exec (.btst 6#32 1#8 0#128) unitA5 = .next (unitA5.answered 0#128) := ⟨rfl, rfl⟩

/-- R70: `BSET 3, 1` on `00` leaves `08`, and `BSET 3, 0` then leaves `00`. -/
theorem test_bset_example :
    exec (.bset 3#32 1#8 1#128) unitZero = .next ((unitOf ⟨4, by decide⟩ [(0, 0x08#8)]).answered 0#128) ∧
    exec (.bset 3#32 1#8 0#128) (unitOf ⟨4, by decide⟩ [(0, 0x08#8)]) = .next (unitZero.answered 0#128) := ⟨rfl, rfl⟩

/-- R70 (c): VALUE 2 clears the bit. -/
theorem test_bset_even_value :
    exec (.bset 0#32 1#8 2#128) (unitOf ⟨1, by decide⟩ [(0, 0xFF#8)]) =
      .next ((unitOf ⟨1, by decide⟩ [(0, 0xFE#8)]).answered 0#128) := by rfl

/-- R98: `OPC = 0x09, WIDTH = 0` is IllegalCommand; BEXT of width 200 far out of range is IllegalWidth. -/
theorem test_fault_priority :
    presentCommand wordIllegal unitA5 = .next (unitA5.faulted .illegalCommand) ∧
    exec (.bext 0xFFFFFFFF#32 200#8 0#128) unitA5 = .next (unitA5.faulted .illegalWidth) := ⟨rfl, rfl⟩

/-- R100: a halted unit answers nothing; R107: reset takes it back to zeros. -/
theorem test_halted_and_reset :
    step (presenting unitHalted [.command wordBext]) = .next unitHalted ∧
    step (presenting unitHalted [.reset]) = .next unitZero := ⟨rfl, rfl⟩

/-- The word of a table row presented right after reset is the next step's command, by the kernel's evaluation. -/
theorem test_table_word_runs_after_reset :
    decodeTableWord 176 wordBext.toNat = some (.bext 5#32 13#8 0#128) ∧
    step (State.reset.withFetchWord 176 wordBext.toNat) = .next (State.reset.answered 0#128) := ⟨rfl, rfl⟩

/-- R79, R80: widths 1, 3, 4, 24 give offsets 0, 1, 4, 8 and N = 32. -/
theorem test_offsets : offsets [1, 3, 4, 24] = [0, 1, 4, 8] ∧ totalBits [1, 3, 4, 24] = 32 := by decide

/-- R77: a layout of 33 bits is rejected before any unit exists. -/
theorem test_33_bits_rejected :
    boot [(.numeric 33 : FieldDeclaration Nat)] = .error (.noUnit .totalNotMultipleOf8) := by rfl

/-- R48: a line of text. -/
theorem test_assemble_text :
    parseLine ['B', 'E', 'X', 'T', ' ', '0', 'x', '5', ',', ' ', '1', '3'] = some (.bext 5 13) := by decide

/-! ### Specifiers (R85, R88) -/

/-- A two-bit exhaustive specifier. -/
def fourColours : SymbolSpecifier Nat := { kind := .exhaustive, table := [(10, 0), (11, 1), (12, 2), (13, 3)] }

/-- The open specifier of R88's example, each discriminant bound to itself. -/
def primes : SymbolSpecifier Nat :=
  { kind := .openMapping 4, table := [(2, 2), (3, 3), (5, 5), (7, 7), (11, 11), (13, 13)] }

/-- R88: the pattern 0 is unrecognized. -/
theorem test_decode_open_unrecognized :
    (decodeOpen 0#32 primes unitZero).1 = .unrecognized { width := 4, raw := 0 } := by rfl

/-- R90: five variants are no exhaustive specifier, and no layout with such a field boots (R110 step 2). -/
theorem test_five_variants :
    boot [.symbol { kind := .exhaustive, table := [(10, 0), (11, 1), (12, 2), (13, 3), (14, 4)] }, .numeric 5] =
      .error (.specifier (.countNotPowerOfTwo : SpecifierError Nat)) := by rfl

/-- R5, R92 b: widths 0 and 129, and a one-variant specifier, are rejected before any unit exists. -/
theorem test_unsupported_widths :
    boot [(.numeric 0 : FieldDeclaration Nat), .numeric 8] = .error .widthUnsupported ∧
    boot [(.numeric 129 : FieldDeclaration Nat), .numeric 7] = .error .widthUnsupported ∧
    boot [.symbol { kind := .exhaustive, table := [(10, 0)] }, .numeric 8] = .error .widthUnsupported := ⟨rfl, rfl, rfl⟩

/-! ### Witnesses of the obligations' hypotheses -/

/-- OneResponsePerExecutedWord, StepRunsTheDecodedCommand, DecodeOrderIsFaultPriority (in range). -/
theorem witness_presented_word :
    (presenting unitA5 [.command wordBext]).inputs = .command wordBext :: [] ∧
    (presenting unitA5 [.command wordBext]).running ∧ decode wordBext = .ok (.bext 5#32 13#8 0#128) ∧
    (opcField wordBext).toNat = 1 ∧ (widthField wordBext).toNat = 13 ∧ (bitIndexField wordBext).toNat = 5 ∧
    5 + 13 ≤ 8 * unitA5.buffer.len.val := ⟨rfl, rfl, rfl, rfl, rfl, rfl, by decide⟩

/-- OneResponsePerExecutedWord: the halted clause. -/
theorem witness_presented_to_halted :
    (presenting unitHalted [.command wordBext]).inputs = .command wordBext :: [] ∧
    ¬ (presenting unitHalted [.command wordBext]).running := ⟨rfl, by decide⟩

/-- IllegalOpcodeRaisesIllegalCommand and the first clause of DecodeOrderIsFaultPriority, at the OPCs beside the legal ones. -/
theorem witness_illegal_opcode :
    (presenting unitA5 [.command wordIllegal]).running ∧
    ¬ (1 ≤ wordIllegal.toNat / 2 ^ 168 ∧ wordIllegal.toNat / 2 ^ 168 ≤ 4) ∧
    (packCommand 0#8 1#8 0#32 0#128).toNat / 2 ^ 168 = 0 ∧ (packCommand 5#8 1#8 0#32 0#128).toNat / 2 ^ 168 = 5 :=
  ⟨rfl, by decide, by decide, by decide⟩

/-- DecodeOrderIsFaultPriority: the width clauses, at 0, 129 and 2, and the bounds clause, at 8*L + 1, for the opcodes. -/
theorem witness_decode_order :
    (widthField (encode (.bext 0#32 0#8 0#128))).toNat = 0 ∧
    (widthField (encode (.bins 0#32 129#8 0#128))).toNat = 129 ∧
    (widthField (encode (.btst 0#32 2#8 0#128))).toNat = 2 ∧
    (opcField (encode (.bset 32#32 1#8 0#128))).toNat = 4 ∧ (widthField (encode (.bset 32#32 1#8 0#128))).toNat = 1 ∧
    8 * unitA5.buffer.len.val < (bitIndexField (encode (.bset 32#32 1#8 0#128))).toNat + 1 ∧
    (opcField (encode (.bins 30#32 3#8 0#128))).toNat = 2 ∧
    8 * unitA5.buffer.len.val < (bitIndexField (encode (.bins 30#32 3#8 0#128))).toNat + 3 ∧
    unitA5.running := ⟨by decide, by decide, by decide, by decide, by decide, by decide, by decide, by decide, rfl⟩

/-- PresentedTableWordRunsNext, and every statement over a running unit alone. -/
theorem witness_running : unitA5.running ∧ State.reset.running := ⟨rfl, rfl⟩

/-- BextReadsTheField, BinsWritesTheField, EveryCommandCompletesInBounds, TypedResultLosesNothing, OversizedValueIsMasked,
WrittenFieldReadsBack, LaterWriteToARangeWins, WritingBackTheValueChangesNothing: the clauses of a range, at the widths
and places where they meet. -/
theorem witness_range_clauses :
    unitA5.running ∧ unitA5.Inv ∧ (0#8).toNat = 0 ∧ 128 < (129#8).toNat ∧
    (1 ≤ (3#8).toNat ∧ (3#8).toNat ≤ 128 ∧ unitA5.inRange (29#32).toNat (3#8).toNat) ∧
    (1 ≤ (3#8).toNat ∧ (3#8).toNat ≤ 128 ∧ 8 * unitA5.buffer.len.val < (30#32).toNat + (3#8).toNat) ∧
    (1 ≤ (1#8).toNat ∧ unitA5.inRange (31#32).toNat (1#8).toNat) ∧
    ((128#8).toNat ≤ 128 ∧ State.reset.inRange (0xFFFFFF80#32).toNat (128#8).toNat) ∧
    2 ^ (3#8).toNat ≤ (8#128).toNat := by decide

/-- BtstTestsOneBit, BsetWritesOneBit and the same clauses of EveryCommandCompletesInBounds: the last bit and the one after. -/
theorem witness_bit_clauses :
    unitA5.running ∧ unitA5.Inv ∧ (2#8).toNat ≠ 1 ∧ (0#8).toNat ≠ 1 ∧ (1#8).toNat = 1 ∧
    (31#32).toNat < 8 * unitA5.buffer.len.val ∧ 8 * unitA5.buffer.len.val ≤ (32#32).toNat ∧
    unitA5.inRange (31#32).toNat 1 := by decide

/-- BtstIsBextAtWidthOne, BsetIsBinsAtWidthOne: a width other than 1, an offset below 8. -/
theorem witness_other_width : unitA5.running ∧ (2#8) ≠ 1#8 ∧ (0#8) ≠ 1#8 ∧ 7 < 8 := by decide

/-- IgnoredBitsChangeNothing: two values that agree in bit 0 only. -/
theorem witness_same_low_bit : (1#128).getLsbD 0 = (3#128).getLsbD 0 ∧ (1#128) ≠ 3#128 := by decide

/-- WalkLaws, SeventeenChunksOnlyAtWidth128: the widths 1 and 128, a chunk and the one after it. -/
theorem witness_walk :
    1 ≤ 1 ∧ 128 ≤ 128 ∧
    (chunks 5 13)[0]? = some { byte := 0, off := 5, c := 3, shift := 0 } ∧
    (chunks 5 13)[1]? = some { byte := 1, off := 0, c := 8, shift := 3 } ∧
    (chunks 5 13)[2]? = some { byte := 2, off := 0, c := 2, shift := 11 } := by decide

/-- SeventeenChunksOnlyAtWidth128 fails here (log 20): 127 bits at bit index 2 are 17 chunks. -/
theorem test_seventeen_chunks_at_127 : (chunks 2 127).length = 17 ∧ (chunks 0 128).length = 16 := by decide

/-- ChunkPrimitives: the ends of its ranges. -/
theorem witness_chunk : (7 ≤ 7 ∧ 1 ≤ 1 ∧ 7 + 1 ≤ 8) ∧ (0 ≤ 7 ∧ 1 ≤ 8 ∧ 0 + 8 ≤ 8) := by decide

/-- DisjointReadDoesNotSeeTheWrite, DisjointWritesCommute: two ranges that meet inside one byte, in either order. -/
theorem witness_disjoint :
    unitA5.Inv ∧ unitA5.running ∧ unitA5.inRange (5#32).toNat (13#8).toNat ∧ unitA5.inRange (18#32).toNat (14#8).toNat ∧
    disjointRanges (5#32).toNat (13#8).toNat (18#32).toNat (14#8).toNat ∧
    disjointRanges (18#32).toNat (14#8).toNat (5#32).toNat (13#8).toNat := by decide

/-- FieldReadsSplit: 13 bits as 1 and 12, and 128 bits as 127 and 1 in a unit that holds them. -/
theorem witness_split :
    unitA5.running ∧ (13#8).toNat ≤ 128 ∧ (13#8).toNat = (1#8).toNat + (12#8).toNat ∧
    (6#32).toNat = (5#32).toNat + (1#8).toNat ∧ unitA5.inRange (5#32).toNat (13#8).toNat ∧
    (128#8).toNat = (127#8).toNat + (1#8).toNat ∧ (129#32).toNat = (2#32).toNat + (127#8).toNat ∧
    State.reset.inRange (2#32).toNat (128#8).toNat := by decide

/-- RunIsAnArrayOfBits: the four commands, all legal in 4 bytes. -/
theorem witness_legal_commands :
    unitA5.Inv ∧ unitA5.running ∧
    ∀ i ∈ [Instr.bins 29#32 3#8 7#128, .bext 5#32 13#8 0#128, .bset 31#32 1#8 0#128, .btst 0#32 1#8 0#128],
      i.wellFormed = true ∧ accessIndex i + accessWidth i ≤ 8 * unitA5.buffer.len.val := by decide

/-- ReadCommandFrame: a read that answers, and a read that faults. -/
theorem witness_read_frame :
    exec (.bext 5#32 13#8 0#128) unitA5 = .next (unitA5.answered 0x1AD5#128) ∧
    exec (.btst 32#32 1#8 0#128) unitA5 = .next (unitA5.faulted .boundsViolation) := ⟨rfl, rfl⟩

/-- WriteCommandFrame: a write that completes, one that faults, one in a halted unit, and an address outside its bytes. -/
theorem witness_write_frame :
    unitA5.Inv ∧ unitHalted.Inv ∧ (∃ t, exec (.bins 8#32 13#8 1#128) unitA5 = .next t ∧ t.fcause = 0x00#8) ∧
    (∃ t, exec (.bset 32#32 1#8 1#128) unitA5 = .next t ∧ t.fcause = 0x01#8) ∧
    (∃ t, exec (.bset 0#32 1#8 0#128) unitHalted = .next t ∧ t.fcause ≠ 0x00#8) ∧
    (0 < (8#32).toNat / 8 ∧ ((8#32).toNat + accessWidth (.bins 8#32 13#8 1#128) - 1) / 8 < 3) :=
  ⟨by decide, by decide, ⟨_, rfl, rfl⟩, ⟨_, rfl, rfl⟩, ⟨_, rfl, by decide⟩, by decide⟩

/-- IllegalWidthFaults, BoundsViolationFaults: each clause at the ends of its range. -/
theorem witness_faulting_operands :
    unitA5.running ∧ (129 ≤ (129#8).toNat ∧ (129#8).toNat ≤ 255) ∧ (129 ≤ (255#8).toNat ∧ (255#8).toNat ≤ 255) ∧
    (Instr.bins 30#32 3#8 0#128).wellFormed = true ∧
    8 * unitA5.buffer.len.val < accessIndex (.bins 30#32 3#8 0#128) + accessWidth (.bins 30#32 3#8 0#128) ∧
    accessIndex (.bins 29#32 3#8 0#128) + accessWidth (.bins 29#32 3#8 0#128) ≤ 8 * unitA5.buffer.len.val := by decide

/-- FaultEntryIsPrecise, LatchIsWrittenByFaultAndResetOnly: a presented word that faults. -/
theorem witness_fault_entry :
    ∃ t, step (presenting unitA5 [.command wordIllegal]) = .next t ∧ t.fcause ≠ 0x00#8 ∧
      t.fcause ≠ unitA5.fcause ∧ unitA5.running := ⟨_, rfl, by decide, by decide, rfl⟩

/-- LatchIsWrittenByFaultAndResetOnly, OnlyResetLeavesTheHaltedCondition, ResetZeroesTheUnit: reset in a halted unit. -/
theorem witness_reset_halted :
    ∃ t, step (presenting unitHalted [.reset]) = .next t ∧ t.fcause ≠ unitHalted.fcause ∧
      (presenting unitHalted [.reset]).inputs = .reset :: [] ∧ unitHalted.fcause ≠ 0x00#8 :=
  ⟨_, rfl, by decide, rfl, by decide⟩

/-- HaltedUnitExecutesNothing, OnlyResetLeavesTheHaltedCondition: a word presented to a halted unit. -/
theorem witness_halted :
    (presenting unitHalted [.command wordBext]).fcause ≠ 0x00#8 ∧
    (presenting unitHalted [.command wordBext]).inputs = .command wordBext :: [] ∧
    ∃ t, step (presenting unitHalted [.command wordBext]) = .next t := ⟨by decide, rfl, ⟨_, rfl⟩⟩

/-- HaltedUnitExecutesNothing: a successful run of one command. -/
theorem witness_successful_run :
    SuccessfulRun [wordBext] unitA5 [{ status := 0x00#8, result := 0x1AD5#128 }]
      (unitA5.answered 0x1AD5#128) := ⟨rfl, rfl, rfl, rfl, rfl, by decide⟩

/-- EveryRangeReadsZeroAfterReset: ranges that end at the last bit. -/
theorem witness_reads_after_reset :
    (presenting unitA5 [.reset]).inputs = .reset :: [] ∧ (∃ t, step (presenting unitA5 [.reset]) = .next t) ∧
    (presenting unitA5 [.reset]).inRange (29#32).toNat (3#8).toNat ∧
    (31#32).toNat < 8 * (presenting unitA5 [.reset]).buffer.len.val := ⟨rfl, ⟨_, rfl⟩, by decide, by decide⟩

/-- StepKeepsTheInvariant, StepKeepsTheLength: a step that writes. -/
theorem witness_invariant_step :
    (presenting unitA5 [.command (encode (.bins 8#32 24#8 0#128))]).Inv ∧
    ∃ t, step (presenting unitA5 [.command (encode (.bins 8#32 24#8 0#128))]) = .next t ∧
      t.buffer.bytes = [(0, 0xA5#8)] := ⟨by decide, ⟨_, rfl, rfl⟩⟩

/-- NoHiddenState: two units that differ in what they have answered only. -/
theorem witness_same_visible_state :
    unitA5.buffer = (unitA5.answered 5#128).buffer ∧ unitA5.fcause = (unitA5.answered 5#128).fcause ∧
    unitA5.inputs = (unitA5.answered 5#128).inputs ∧ unitA5 ≠ unitA5.answered 5#128 :=
  ⟨rfl, rfl, rfl, by decide⟩

/-- HostViewsTheBuffer: the last byte and the address after it. -/
theorem witness_views :
    3 < unitA5.buffer.len.val ∧ unitA5.buffer.len.val ≤ 4 ∧ unitA5.viewByte 3 = some 0x3C#8 ∧ unitA5.viewByte 4 = none := by
  decide

/-- ContainerIsTheNarrowestRung: the ends of its ranges. -/
theorem witness_container : (1 ≤ 1 ∧ 128 ≤ 128) ∧ 128 < 129 ∧ container 128 = some 128 ∧ container 129 = none := by decide

/-- ValidationPrimitives: a total that is no multiple of 8. -/
theorem witness_bad_total : 33 % 8 ≠ 0 := by decide

/-- PlacementIsContiguous: two fields and their offsets. -/
theorem witness_placement :
    [1, 3, 4, 24][1]? = some 3 ∧ (offsets [1, 3, 4, 24])[1]? = some 1 ∧ (offsets [1, 3, 4, 24])[2]? = some 4 ∧ 1 < 2 := by
  decide

/-- BootedUnitHoldsItsFields: a layout of widths 1, 2, 5, 24 with a validated specifier boots with 4 bytes. -/
theorem witness_boot :
    boot [.boolean, .symbol fourColours, .numeric 5, .numeric 24] =
      .ok (State.zeroed ⟨4, by decide⟩, [(0, 1), (1, 2), (3, 5), (8, 24)]) := by rfl

/-- FieldWidthOfEveryType: the narrowest and the widest numeric field, and a validated specifier. -/
theorem witness_field_types :
    (fieldWidth (.numeric ⟨1, by decide⟩ : FieldType Nat)).val = 1 ∧
    (fieldWidth (.numeric ⟨128, by decide⟩ : FieldType Nat)).val = 128 ∧
    (fieldWidth (.symbol ⟨primes, rfl⟩)).val = 4 := ⟨rfl, rfl, rfl⟩

/-- LayoutFieldsReadBack, FieldValuesFixTheBuffer: R80's layout fills 4 bytes. -/
theorem witness_layout :
    unitA5.Inv ∧ unitZero.Inv ∧ unitA5.running ∧ unitZero.running ∧ unitA5.buffer.len = unitZero.buffer.len ∧
    (∀ f ∈ [((1#8 : WidthField), (1#128 : Value)), (3#8, 5#128), (4#8, 0xA#128), (24#8, 0xABCDEF#128)],
      1 ≤ f.1.toNat ∧ f.1.toNat ≤ 128) ∧
    totalBits ([((1#8 : WidthField), (1#128 : Value)), (3#8, 5#128), (4#8, 0xA#128), (24#8, 0xABCDEF#128)].map
      fun f => f.1.toNat) = 8 * unitA5.buffer.len.val :=
  ⟨by decide, by decide, rfl, rfl, rfl, by simp, rfl⟩

/-- ExhaustiveDecodeNeverFails, OpenDecodeIsTotal, EncodedSymbolDecodesToItself, SymbolDecodeFaultsAsBext: validated
specifiers, a field that ends at the last bit, and one past it. -/
theorem witness_specifiers :
    fourColours.kind = .exhaustive ∧ fourColours.validate = .ok () ∧ primes.validate = .ok () ∧
    7 ∈ primes.table.map Prod.fst ∧ unitA5.Inv ∧ unitA5.running ∧
    unitA5.inRange (30#32).toNat fourColours.width ∧ unitA5.inRange (28#32).toNat primes.width ∧
    8 * unitA5.buffer.len.val < (31#32).toNat + fourColours.width :=
  ⟨rfl, rfl, rfl, by decide, by decide, rfl, by decide, by decide, by decide⟩

end Sys2Proof.Tests
end

section
/-! What reset leaves (R18). -/

namespace Sys2Proof.Machine

/-- A buffer that lists no byte reads 0x00 at every address: the state reset leaves it in (R18, R107). -/
theorem Buffer.byteAt_of_bytes_nil {B : Buffer} (h : B.bytes = []) (a : Nat) : B.byteAt a = 0x00#8 := by
  rw [Buffer.byteAt, h, Memory.read]

theorem zeroed_byteAt (L : Config.BufferLength) (a : Nat) : (State.zeroed L).buffer.byteAt a = 0x00#8 :=
  Buffer.byteAt_of_bytes_nil (congrArg Buffer.bytes (zeroed_buffer L)) a

/-- Settles O38: the reset state is the zeroed unit of length `Config.resetLength`, and a zeroed unit of any length lists
no byte. -/
theorem resetValues : Obligations.ResetValues :=
  ⟨zeroed_byteAt,
    fun L => ⟨zeroed_fcause L, congrArg Buffer.len (zeroed_buffer L)⟩,
    zeroed_byteAt Config.resetLength,
    zeroed_fcause Config.resetLength⟩

end Sys2Proof.Machine
end

section
/-! The fields of a command word as numbers (R35). -/

namespace Sys2Proof

variable (cw : CommandWord)

theorem opcField_toNat : (opcField cw).toNat = cw.toNat / 2 ^ 168 := by
  have hlt : cw.toNat / 2 ^ 168 < 2 ^ 8 := Nat.div_lt_of_lt_mul cw.isLt
  rw [opcField, BitVec.extractLsb'_toNat, Nat.shiftRight_eq_div_pow, Nat.mod_eq_of_lt hlt]

theorem widthField_toNat : (widthField cw).toNat = cw.toNat / 2 ^ 160 % 2 ^ 8 := by
  rw [widthField, BitVec.extractLsb'_toNat, Nat.shiftRight_eq_div_pow]

theorem bitIndexField_toNat : (bitIndexField cw).toNat = cw.toNat / 2 ^ 128 % 2 ^ 32 := by
  rw [bitIndexField, BitVec.extractLsb'_toNat, Nat.shiftRight_eq_div_pow]

theorem valueField_toNat : (valueField cw).toNat = cw.toNat % 2 ^ 128 := by
  rw [valueField, BitVec.extractLsb'_toNat, Nat.shiftRight_zero]

/-- The fields, each at its place, add up to the word: no bit of it lies outside them (R35). -/
theorem commandWord_toNat_eq_fields :
    cw.toNat = (opcField cw).toNat * 2 ^ 168 + (widthField cw).toNat * 2 ^ 160 +
      (bitIndexField cw).toNat * 2 ^ 128 + (valueField cw).toNat := by
  rw [opcField_toNat, widthField_toNat, bitIndexField_toNat, valueField_toNat]
  omega

/-- Settles O3: each field is its slice of the word, and the slices add up to the word. -/
theorem commandWordHasFourFields : Obligations.CommandWordHasFourFields := fun cw =>
  ⟨opcField_toNat cw, widthField_toNat cw, bitIndexField_toNat cw, valueField_toNat cw, commandWord_toNat_eq_fields cw⟩

end Sys2Proof
end

section
/-! What the decoder answers, in terms of the opcode and the operands of a command (R39, R43). -/

namespace Sys2Proof

open Sys2Proof.Machine Sys2Proof.Laws.EncodeFields

variable {cw : CommandWord} {i : Instr}

theorem opcode_bounds (i : Instr) : 1 ≤ opcode i ∧ opcode i ≤ 4 := by
  cases i <;> simp [opcode]

/-- A word decodes to the command whose opcode and operands are its fields, and to no other (R35, R39). -/
theorem decode_eq_ok_iff :
    decode cw = .ok i ↔
      (opcField cw).toNat = opcode i ∧ (bitIndexField cw, widthField cw, valueField cw) = operands i := by
  constructor
  · intro h
    unfold decode at h
    split_ifs at h with h1 h2 h3 h4 <;> cases h
    · exact ⟨congrArg BitVec.toNat h1, rfl⟩
    · exact ⟨congrArg BitVec.toNat h2, rfl⟩
    · exact ⟨congrArg BitVec.toNat h3, rfl⟩
    · exact ⟨congrArg BitVec.toNat h4, rfl⟩
  · rintro ⟨hopc, hfields⟩
    cases i with
    | bext =>
      have h : opcField cw = opcBext := BitVec.eq_of_toNat_eq hopc
      cases hfields
      simp [decode, h]
    | bins =>
      have h : opcField cw = opcBins := BitVec.eq_of_toNat_eq hopc
      cases hfields
      simp [decode, h, opcBext, opcBins]
    | btst =>
      have h : opcField cw = opcBtst := BitVec.eq_of_toNat_eq hopc
      cases hfields
      simp [decode, h, opcBext, opcBins, opcBtst]
    | bset =>
      have h : opcField cw = opcBset := BitVec.eq_of_toNat_eq hopc
      cases hfields
      simp [decode, h, opcBext, opcBins, opcBtst, opcBset]

theorem decode_isOk_of_opcField (h : 1 ≤ (opcField cw).toNat ∧ (opcField cw).toNat ≤ 4) :
    ∃ i, decode cw = .ok i := by
  obtain h | h | h | h : (opcField cw).toNat = 1 ∨ (opcField cw).toNat = 2 ∨ (opcField cw).toNat = 3 ∨
      (opcField cw).toNat = 4 := by omega
  · exact ⟨.bext _ _ _, decode_eq_ok_iff.mpr ⟨h, rfl⟩⟩
  · exact ⟨.bins _ _ _, decode_eq_ok_iff.mpr ⟨h, rfl⟩⟩
  · exact ⟨.btst _ _ _, decode_eq_ok_iff.mpr ⟨h, rfl⟩⟩
  · exact ⟨.bset _ _ _, decode_eq_ok_iff.mpr ⟨h, rfl⟩⟩

/-- The decoder rejects by OPC alone (R43). -/
theorem decode_eq_error_iff :
    decode cw = .error .illegalCommand ↔ ¬ (1 ≤ (opcField cw).toNat ∧ (opcField cw).toNat ≤ 4) := by
  constructor
  · intro hd hopc
    obtain ⟨i, hok⟩ := decode_isOk_of_opcField hopc
    rw [hok] at hd
    cases hd
  · intro hopc
    cases hd : decode cw with
    | error e => cases e; rfl
    | ok i => exact absurd ((decode_eq_ok_iff.mp hd).1 ▸ opcode_bounds i) hopc

/-- R44 read off the word: which widths its opcode supports. -/
theorem wellFormed_iff_of_decode (hd : decode cw = .ok i) :
    i.wellFormed = true ↔
      ((opcField cw).toNat = 1 ∨ (opcField cw).toNat = 2) ∧
          1 ≤ (widthField cw).toNat ∧ (widthField cw).toNat ≤ 128 ∨
        ((opcField cw).toNat = 3 ∨ (opcField cw).toNat = 4) ∧ (widthField cw).toNat = 1 := by
  obtain ⟨hopc, hfields⟩ := decode_eq_ok_iff.mp hd
  cases i <;> cases hfields <;> simp [hopc, opcode, Instr.wellFormed]

theorem accessIndex_of_decode (hd : decode cw = .ok i) : accessIndex i = (bitIndexField cw).toNat := by
  obtain ⟨-, hfields⟩ := decode_eq_ok_iff.mp hd
  cases i <;> cases hfields <;> rfl

/-- BTST and BSET access one bit, which is their WIDTH when it is legal (R44, R65, R70). -/
theorem accessWidth_of_decode (hd : decode cw = .ok i) (hwf : i.wellFormed = true) :
    accessWidth i = (widthField cw).toNat := by
  obtain ⟨-, hfields⟩ := decode_eq_ok_iff.mp hd
  cases i <;> cases hfields
  case bext | bins => rfl
  case btst | bset => exact (of_decide_eq_true hwf).symm

end Sys2Proof
end

section
/-! A command of a running unit: judged by its width, then by its range, then completed (R46, R98). -/

namespace Sys2Proof.Machine

variable {s : State} {i : Instr}

theorem raiseFault_eq_faulted (c : FaultCause) (s : State) : raiseFault c s = s.faulted c := rfl

/-- The four commands share one frame, which judges them by `wellFormed` and by the range they access (R46). -/
theorem exec_eq_runCommand (i : Instr) (s : State) :
    ∃ effect, exec i s = runCommand i.wellFormed (accessIndex i) (accessWidth i) effect s := by
  cases i <;> exact ⟨_, rfl⟩

theorem exec_of_not_wellFormed (hr : s.running) (hwf : i.wellFormed = false) :
    exec i s = .next (s.faulted .illegalWidth) := by
  obtain ⟨effect, he⟩ := exec_eq_runCommand i s
  rw [he, runCommand_illegalWidth ((halted_eq_false_iff s).mpr hr) hwf, raiseFault_eq_faulted]

theorem exec_of_not_inRange (hr : s.running) (hwf : i.wellFormed = true)
    (hb : 8 * s.buffer.len.val < accessIndex i + accessWidth i) :
    exec i s = .next (s.faulted .boundsViolation) := by
  obtain ⟨effect, he⟩ := exec_eq_runCommand i s
  rw [he, runCommand_bounds ((halted_eq_false_iff s).mpr hr) hwf hb, raiseFault_eq_faulted]

/-- A legal command completes: it answers its result with STATUS 0, and of the state it changes the buffer at most
(R45). -/
theorem exec_of_legalIn (hr : s.running) (hl : legalIn s.buffer.len.val i) :
    ∃ B : Buffer, exec i s = .next (({ s with buffer := B } : State).answered (bitAnswer i s.buffer.bitAt)) := by
  obtain ⟨hwf, hb⟩ := hl
  have hh : s.halted = false := (halted_eq_false_iff s).mpr hr
  cases i with
  | bext idx w v =>
    have hread := extractField_eq s.buffer (of_decide_eq_true hwf).1 hb
    exact ⟨s.buffer, (runCommand_effect hh hwf hb).trans (congrArg (fun r => answerValue (r.map numberResult) s) hread)⟩
  | bins idx w v =>
    obtain ⟨B, hwrite, -⟩ := insertField_ok (valueOperand v) (of_decide_eq_true hwf).1 hb
    exact ⟨B, (runCommand_effect hh hwf hb).trans (congrArg (takeBuffer · s) hwrite)⟩
  | btst idx w v =>
    have hread := testBitOf_eq s.buffer hb
    exact ⟨s.buffer, (runCommand_effect hh hwf hb).trans (congrArg (fun r => answerValue (r.map truthResult) s) hread)⟩
  | bset idx w v =>
    obtain ⟨B, hwrite, -⟩ := writeBit_ok (truthOperand v) hb
    exact ⟨B, (runCommand_effect hh hwf hb).trans (congrArg (takeBuffer · s) hwrite)⟩

end Sys2Proof.Machine
end

section
/-! A command word presented to a running unit (R43, R46). -/

namespace Sys2Proof.Machine

variable {s : State} {cw : CommandWord} {rest : List HostMove} {i : Instr}

theorem step_of_command (hin : s.inputs = .command cw :: rest) :
    step s = presentCommand cw { s with inputs := rest } := by
  rw [step, nextMove, hin]
  rfl

theorem step_of_decode_error (hr : s.running) (hin : s.inputs = .command cw :: rest)
    (hd : decode cw = .error .illegalCommand) :
    step s = .next (({ s with inputs := rest } : State).faulted .illegalCommand) := by
  have hh : ({ s with inputs := rest } : State).halted = false := (halted_eq_false_iff _).mpr hr
  rw [step_of_command hin]
  simp [presentCommand, hh, hd, raiseFault_eq_faulted]

theorem step_of_decode_ok (hr : s.running) (hin : s.inputs = .command cw :: rest) (hd : decode cw = .ok i) :
    step s = exec i { s with inputs := rest } := by
  have hh : ({ s with inputs := rest } : State).halted = false := (halted_eq_false_iff _).mpr hr
  rw [step_of_command hin]
  simp [presentCommand, hh, hd]

/-- Settles O6: the decoder rejects by OPC alone, and a running unit answers a rejected word with IllegalCommand. -/
theorem illegalOpcodeRaisesIllegalCommand : Obligations.IllegalOpcodeRaisesIllegalCommand := by
  have hreject (cw : CommandWord) :
      decode cw = .error .illegalCommand ↔ ¬ (1 ≤ cw.toNat / 2 ^ 168 ∧ cw.toNat / 2 ^ 168 ≤ 4) :=
    opcField_toNat cw ▸ decode_eq_error_iff
  exact ⟨hreject, fun s cw rest hr hin hopc => step_of_decode_error hr hin ((hreject cw).mpr hopc)⟩

/-- The command of the word's opcode, with the word's operands, is the one that runs. -/
theorem step_of_fields (hr : s.running) (hin : s.inputs = .command cw :: rest)
    (hopc : (opcField cw).toNat = Laws.EncodeFields.opcode i)
    (hfields : (bitIndexField cw, widthField cw, valueField cw) = Laws.EncodeFields.operands i) :
    step s = exec i { s with inputs := rest } :=
  step_of_decode_ok hr hin (decode_eq_ok_iff.mpr ⟨hopc, hfields⟩)

theorem step_of_illegalWidth (hr : s.running) (hin : s.inputs = .command cw :: rest) (hd : decode cw = .ok i)
    (hwf : ¬ i.wellFormed = true) :
    step s = .next (({ s with inputs := rest } : State).faulted .illegalWidth) :=
  (step_of_decode_ok hr hin hd).trans (exec_of_not_wellFormed hr (Bool.eq_false_iff.mpr hwf))

theorem step_of_boundsViolation (hr : s.running) (hin : s.inputs = .command cw :: rest) (hd : decode cw = .ok i)
    (hwf : i.wellFormed = true) (hb : 8 * s.buffer.len.val < (bitIndexField cw).toNat + (widthField cw).toNat) :
    step s = .next (({ s with inputs := rest } : State).faulted .boundsViolation) := by
  rw [← accessIndex_of_decode hd, ← accessWidth_of_decode hd hwf] at hb
  exact (step_of_decode_ok hr hin hd).trans (exec_of_not_inRange hr hwf hb)

theorem step_running_of_legal (hr : s.running) (hin : s.inputs = .command cw :: rest) (hd : decode cw = .ok i)
    (hwf : i.wellFormed = true) (hb : (bitIndexField cw).toNat + (widthField cw).toNat ≤ 8 * s.buffer.len.val) :
    ∃ t, step s = .next t ∧ t.running := by
  rw [← accessIndex_of_decode hd, ← accessWidth_of_decode hd hwf] at hb
  obtain ⟨B, hB⟩ := exec_of_legalIn (s := { s with inputs := rest }) hr ⟨hwf, hb⟩
  exact ⟨_, (step_of_decode_ok hr hin hd).trans hB, hr⟩

/-- Settles O7: OPC decides whether the word decodes; the command it decodes to is judged by its width and its range, and
completes when it passes. -/
theorem decodeOrderIsFaultPriority : Obligations.DecodeOrderIsFaultPriority := by
  rintro s cw rest _ _ _ hr hin rfl rfl rfl
  refine ⟨fun hopc => step_of_decode_error hr hin (decode_eq_error_iff.mpr hopc), fun hopc hw => ?_, fun hopc hw => ?_,
    fun hlegal hb => ?_, fun hlegal hb => ⟨fun h => step_of_fields hr hin h rfl, fun h => step_of_fields hr hin h rfl,
      fun h => step_of_fields hr hin h rfl, fun h => step_of_fields hr hin h rfl, ?_⟩⟩
  · obtain ⟨i, hd⟩ := decode_isOk_of_opcField (cw := cw) (by omega)
    exact step_of_illegalWidth hr hin hd ((wellFormed_iff_of_decode hd).not.mpr (by omega))
  · obtain ⟨i, hd⟩ := decode_isOk_of_opcField (cw := cw) (by omega)
    exact step_of_illegalWidth hr hin hd ((wellFormed_iff_of_decode hd).not.mpr (by omega))
  · obtain ⟨i, hd⟩ := decode_isOk_of_opcField (cw := cw) (by omega)
    exact step_of_boundsViolation hr hin hd ((wellFormed_iff_of_decode hd).mpr hlegal) hb
  · obtain ⟨i, hd⟩ := decode_isOk_of_opcField (cw := cw) (by omega)
    exact step_running_of_legal hr hin hd ((wellFormed_iff_of_decode hd).mpr hlegal) hb

end Sys2Proof.Machine
end

section
/-! The single-byte primitives as numbers (R52 to R55). -/

namespace Sys2Proof.Machine

theorem extractChunk_eq (b : Byte) (off c : Nat) : extractChunk b off c = b.toNat / 2 ^ off % 2 ^ c := by
  rw [extractChunk, lowMask_eq, Nat.and_two_pow_sub_one_eq_mod, Nat.shiftRight_eq_div_pow]

theorem extractChunk_lt (b : Byte) (off c : Nat) : extractChunk b off c < 2 ^ c :=
  extractChunk_eq b off c ▸ Nat.mod_lt _ (Nat.two_pow_pos c)

theorem chunkMask_eq (off c : Nat) : chunkMask off c = (2 ^ c - 1) * 2 ^ off := by
  rw [chunkMask, lowMask_eq, Nat.shiftLeft_eq]

theorem getLsbD_insertChunk (b : Byte) {off c : Nat} (v : Nat) (h : off + c ≤ 8) (k : Nat) :
    (insertChunk b off c v).getLsbD k = if off ≤ k ∧ k < off + c then v.testBit (k - off) else b.getLsbD k := by
  simpa only [BitVec.testBit_toNat] using testBit_insertChunk b v h k

/-- Settles O22: the masks are read off `2 ^ c - 1`, a chunk is a quotient and a remainder, and an insertion is known at
every bit; that the chunk lies in the byte matters for the mask and the insertion only. -/
theorem chunkPrimitives : Obligations.ChunkPrimitives :=
  ⟨by decide, fun b off c v _ _ h =>
    ⟨extractChunk_eq b off c, extractChunk_lt b off c, chunkMask_eq off c, Nat.le_of_lt_succ (chunkMask_lt h),
      getLsbD_insertChunk b v h⟩⟩

end Sys2Proof.Machine
end

section
/-! The reading commands in full: BEXT and BTST, with their encodings (R63, R65). -/

namespace Sys2Proof

/-- A command's own word decodes to the command, all operands kept (R35, R39). -/
theorem decode_encode (i : Instr) : decode (encode i) = .ok i := by
  refine decode_eq_ok_iff.mpr ?_
  cases i with
  | bext idx w v => exact Laws.EncodeFields.bext idx w v
  | bins idx w v => exact Laws.EncodeFields.bins idx w v
  | btst idx w v => exact Laws.EncodeFields.btst idx w v
  | bset idx w v => exact Laws.EncodeFields.bset idx w v

end Sys2Proof

namespace Sys2Proof.Machine

variable {s : State} {idx : BitIndex} {w : WidthField} (v : Value)

theorem exec_bext_of_inRange (hr : s.running) (hw : 1 ≤ w.toNat ∧ w.toNat ≤ 128) (hb : s.inRange idx.toNat w.toNat) :
    exec (.bext idx w v) s = .next (s.answered (BitVec.ofNat 128 (fieldValue s.buffer idx.toNat w.toNat))) := by
  have hread := extractField_eq s.buffer hw.1 hb
  calc exec (.bext idx w v) s
      = answerValue ((extractField s.buffer idx.toNat w.toNat).map numberResult) s :=
        runCommand_effect ((halted_eq_false_iff s).mpr hr) ((rangeWidthLegal_iff _).mpr hw) hb
    _ = .next (s.answered (BitVec.ofNat 128 (fieldValue s.buffer idx.toNat w.toNat))) := by rw [hread]; rfl

theorem exec_btst_of_inRange (hr : s.running) (hw : w.toNat = 1) (hb : s.inRange idx.toNat 1) :
    exec (.btst idx w v) s = .next (s.answered (if s.buffer.bitAt idx.toNat then 1#128 else 0#128)) := by
  have hread := testBitOf_eq s.buffer hb
  calc exec (.btst idx w v) s
      = answerValue ((testBitOf s.buffer idx.toNat).map truthResult) s :=
        runCommand_effect ((halted_eq_false_iff s).mpr hr) ((bitWidthLegal_iff _).mpr hw) hb
    _ = .next (s.answered (if s.buffer.bitAt idx.toNat then 1#128 else 0#128)) := by rw [hread]; rfl

/-- Settles O10: the frame of a command faults on the width and on the range, and in range the walk over the bytes reads
the field's value. -/
theorem bextReadsTheField : Obligations.BextReadsTheField := by
  refine ⟨fun idx w v => decode_encode (.bext idx w v), fun s idx w v hr => ⟨fun hw => ?_, fun h1 h128 hb => ?_,
    fun h1 h128 hb => exec_bext_of_inRange v hr ⟨h1, h128⟩ hb⟩⟩
  · exact exec_of_not_wellFormed hr (decide_eq_false (by omega))
  · exact exec_of_not_inRange hr (decide_eq_true ⟨h1, h128⟩) hb

/-- Settles O11: the frame of a command faults on the width and on the range of one bit, and in range the masked byte is
that bit. -/
theorem btstTestsOneBit : Obligations.BtstTestsOneBit := by
  refine ⟨fun idx w v => decode_encode (.btst idx w v), fun s idx w v hr => ⟨fun hw => ?_, fun hw hb => ?_,
    fun hw hb => exec_btst_of_inRange v hr hw hb⟩⟩
  · exact exec_of_not_wellFormed hr (decide_eq_false hw)
  · exact exec_of_not_inRange hr (decide_eq_true hw) (Nat.lt_succ_of_le hb)

end Sys2Proof.Machine
end

section
/-! The writing commands in full: BINS and BSET, with their encodings, and the masking of an oversized value (R67, R68,
R70). -/

namespace Sys2Proof.Machine

theorem insertChunk_mod (b : Byte) (off : Nat) {c n : Nat} (v : Nat) (h : c ≤ n) :
    insertChunk b off c (v % 2 ^ n) = insertChunk b off c v := by
  have hlow : v % 2 ^ n &&& lowMask c = v &&& lowMask c := by
    simp only [lowMask_eq, Nat.and_two_pow_sub_one_eq_mod]
    exact Nat.mod_mod_of_dvd v (Nat.pow_dvd_pow 2 h)
  rw [insertChunk, hlow, insertChunk]

/-- The loop stores nothing of the value past the bits it has to go: each chunk takes its low bits and leaves the rest,
masked, to the chunks after it (R57, R59). -/
theorem insertWalk_walk_mod (fuel i remaining shift : Nat) (B : Buffer) (v : Nat) :
    insertWalk (walk fuel i remaining shift) B (v % 2 ^ remaining) = insertWalk (walk fuel i remaining shift) B v := by
  induction fuel generalizing i remaining shift B v with
  | zero => rfl
  | succ n ih =>
    rw [walk_succ]
    set c := min (8 - i % 8) remaining
    have hc : c ≤ remaining := Nat.min_le_right ..
    set rest := if remaining - c = 0 then [] else walk n (i + c) (remaining - c) (shift + c) with hrest
    have hshift : (v % 2 ^ remaining) >>> c = (v >>> c) % 2 ^ (remaining - c) := by
      rw [Nat.shiftRight_eq_div_pow, Nat.shiftRight_eq_div_pow, ← Nat.mod_mul_right_div_self, ← pow_add,
        Nat.add_sub_cancel' hc]
    have htail (B' : Buffer) : insertWalk rest B' ((v % 2 ^ remaining) >>> c) = insertWalk rest B' (v >>> c) := by
      rw [hshift, hrest]
      split
      · rfl
      · exact ih ..
    simp only [insertWalk, insertChunk_mod _ _ v hc, htail]

/-- `insert` masks an oversized value, at any width and in any buffer, in range or not (R68). -/
theorem insertField_mod (B : Buffer) (i w v : Nat) : insertField B i w (v % 2 ^ w) = insertField B i w v :=
  insertWalk_walk_mod w i w 0 B v

/-- BINS reads no more of VALUE than its low `w` bits, in every state and at every WIDTH (R68). -/
theorem exec_bins_mod (s : State) (idx : BitIndex) (w : WidthField) (v : Value) :
    exec (.bins idx w (BitVec.ofNat 128 (v.toNat % 2 ^ w.toNat))) s = exec (.bins idx w v) s := by
  have hinsert : insertField s.buffer idx.toNat w.toNat (BitVec.ofNat 128 (v.toNat % 2 ^ w.toNat)).toNat =
      insertField s.buffer idx.toNat w.toNat v.toNat := by
    rw [BitVec.toNat_ofNat, Nat.mod_eq_of_lt ((Nat.mod_le ..).trans_lt v.isLt), insertField_mod]
  exact congrArg (fun r => runCommand _ _ _ (takeBuffer r s) s) hinsert

variable {s : State} {idx : BitIndex} {w : WidthField} (v : Value)

/-- Everything BINS does in range: it stores the low bits of VALUE in the range and answers 0, and the buffer stays in
canonical form (R67). -/
theorem exec_bins_of_inRange (hr : s.running) (hI : s.Inv) (hw : 1 ≤ w.toNat ∧ w.toNat ≤ 128)
    (hb : s.inRange idx.toNat w.toNat) :
    ∃ B : Buffer, exec (.bins idx w v) s = .next (({ s with buffer := B } : State).answered 0#128) ∧
      B.len = s.buffer.len ∧ B.wf = true ∧ ∀ j, B.bitAt j = bitWrite (.bins idx w v) s.buffer.bitAt j := by
  obtain ⟨B, hwrite, hlen, hwf, hbits⟩ := insertField_spec v.toNat hI.1 hw.1 hb
  refine ⟨B, ?_, hlen, hwf, hbits⟩
  calc exec (.bins idx w v) s
      = takeBuffer (insertField s.buffer idx.toNat w.toNat v.toNat) s :=
        runCommand_effect ((halted_eq_false_iff s).mpr hr) ((rangeWidthLegal_iff _).mpr hw) hb
    _ = .next (({ s with buffer := B } : State).answered 0#128) := by rw [hwrite]; rfl

/-- Everything BSET does in range: the one bit takes `VALUE[0]`, and the buffer stays in canonical form (R70). -/
theorem exec_bset_of_inRange (hr : s.running) (hI : s.Inv) (hw : w.toNat = 1) (hb : s.inRange idx.toNat 1) :
    ∃ B : Buffer, exec (.bset idx w v) s = .next (({ s with buffer := B } : State).answered 0#128) ∧
      B.len = s.buffer.len ∧ B.wf = true ∧ ∀ j, B.bitAt j = bitWrite (.bset idx w v) s.buffer.bitAt j := by
  obtain ⟨B, hwrite, hlen, hwf, hbits⟩ := writeBit_spec (v.getLsbD 0) hI.1 hb
  refine ⟨B, ?_, hlen, hwf, hbits⟩
  calc exec (.bset idx w v) s
      = takeBuffer (writeBit s.buffer idx.toNat (v.getLsbD 0)) s :=
        runCommand_effect ((halted_eq_false_iff s).mpr hr) ((bitWidthLegal_iff _).mpr hw) hb
    _ = .next (({ s with buffer := B } : State).answered 0#128) := by rw [hwrite]; rfl

/-- Settles O12: the frame of a command faults on the width and on the range, and in range the walk over the bytes writes
the field. -/
theorem binsWritesTheField : Obligations.BinsWritesTheField := by
  refine ⟨fun idx w v => decode_encode (.bins idx w v), fun s idx w v hr => ⟨fun hw => ?_, fun h1 h128 hb => ?_,
    fun h1 h128 hb hI => ?_⟩⟩
  · exact exec_of_not_wellFormed hr (decide_eq_false (by omega))
  · exact exec_of_not_inRange hr (decide_eq_true ⟨h1, h128⟩) hb
  · obtain ⟨B, hexec, hlen, -, hbits⟩ := exec_bins_of_inRange v hr hI ⟨h1, h128⟩ hb
    exact ⟨B, hexec, hlen, hbits⟩

/-- Settles O13: the frame of a command faults on the width and on the range of one bit, and in range the masked byte
takes that bit. -/
theorem bsetWritesOneBit : Obligations.BsetWritesOneBit := by
  refine ⟨fun idx w v => decode_encode (.bset idx w v), fun s idx w v hr => ⟨fun hw => ?_, fun hw hb => ?_,
    fun hw hb hI => ?_⟩⟩
  · exact exec_of_not_wellFormed hr (decide_eq_false hw)
  · exact exec_of_not_inRange hr (decide_eq_true hw) (Nat.lt_succ_of_le hb)
  · obtain ⟨B, hexec, hlen, -, hbits⟩ := exec_bset_of_inRange v hr hI hw hb
    exact ⟨B, hexec, hlen, hbits⟩

/-- Settles O17: BINS masks its VALUE, and in range it completes whatever the VALUE is, oversized or not. -/
theorem oversizedValueIsMasked : Obligations.OversizedValueIsMasked :=
  ⟨fun s idx w v => (exec_bins_mod s idx w v).symm,
    fun _ idx w v hr h1 h128 hb _ => exec_of_legalIn (i := .bins idx w v) hr ⟨decide_eq_true ⟨h1, h128⟩, hb⟩⟩

end Sys2Proof.Machine
end

section
/-! The width of each field type (R75, R81, R85). -/

namespace Sys2Proof.Machine

variable {σ : Type}

@[simp] theorem fieldWidth_numeric (w : FieldWidth) : fieldWidth (.numeric w : FieldType σ) = w := rfl

@[simp] theorem fieldWidth_boolean_val : (fieldWidth (.boolean : FieldType σ)).val = 1 := rfl

@[simp] theorem fieldWidth_symbol_val (p : ValidSpecifier σ) : (fieldWidth (.symbol p)).val = p.val.width := rfl

/-- A field type is built from checked parts, so its width is one the codec supports: a numeric width carries its bounds,
and a specifier's follow from its validation (R75, R90). -/
theorem fieldWidth_bounds (t : FieldType σ) : 1 ≤ (fieldWidth t).val ∧ (fieldWidth t).val ≤ 128 := by
  cases t with
  | numeric w => exact w.property
  | boolean => rw [fieldWidth_boolean_val]; decide
  | symbol p => exact SymbolSpecifier.width_of_validate p.property

/-- Settles O50: one equation per kind of field type, and the bounds by the same cases. -/
theorem fieldWidthOfEveryType : Obligations.FieldWidthOfEveryType := fun _ =>
  ⟨fun w => congrArg Subtype.val (fieldWidth_numeric w), fieldWidth_boolean_val, fieldWidth_symbol_val, fieldWidth_bounds⟩

end Sys2Proof.Machine
end

section
/-! Faults and the halted condition (R95, R96, R99, R101). -/

namespace Sys2Proof.Machine

variable {s t : State} {cw : CommandWord} {rest : List HostMove}

/-- Out of a running unit only a fault halts: an answer and a store leave FCAUSE as it was (R99, R104). -/
theorem CommandEffect.eq_faulted (he : CommandEffect s t) (hr : s.running) (ht : ¬ t.running) :
    ∃ c, t = s.faulted c := by
  cases he with
  | silent => exact absurd hr ht
  | faults _ c => exact ⟨c, raiseFault_eq_faulted c s⟩
  | answers => exact absurd hr ht
  | stores => exact absurd hr ht

/-- A halted unit does not look at the word presented to it (R100). -/
theorem presentCommand_of_halted (cw : CommandWord) (hh : s.halted = true) : presentCommand cw s = .next s :=
  if_pos hh

theorem step_of_command_halted (hh : s.halted = true) (hin : s.inputs = .command cw :: rest) :
    step s = .next { s with inputs := rest } :=
  (step_of_command hin).trans (presentCommand_of_halted cw hh)

/-- Settles O34: a step that halts a running unit raised a fault in the state without the host's move, and what a raised
fault leaves is known field by field. -/
theorem faultEntryIsPrecise : Obligations.FaultEntryIsPrecise := by
  intro s t cw rest hr hin hstep ht
  obtain ⟨u, hu, he⟩ := presentCommand_effect cw { s with inputs := rest }
  rw [step_of_command hin, hu] at hstep
  cases hstep
  obtain ⟨c, rfl⟩ := he.eq_faulted hr ht
  exact ⟨c, faulted_buffer _ c, faulted_fcause _ c, faulted_responses _ c, (halted_eq_true_iff _).mpr ht,
    faulted_inputs _ c⟩

/-- Settles O33: the frame of every command judges the range after the width, and a legal command in range answers with
FCAUSE as it was. -/
theorem boundsViolationFaults : Obligations.BoundsViolationFaults := by
  refine fun s i hr hwf => ⟨exec_of_not_inRange hr hwf, fun hb => ?_⟩
  obtain ⟨B, hB⟩ := exec_of_legalIn hr ⟨hwf, hb⟩
  exact ⟨_, hB, hr⟩

/-- Settles O36: with no move of the host, or with a word, a halted unit stays as it is; the one other move is reset. -/
theorem onlyResetLeavesTheHaltedCondition : Obligations.OnlyResetLeavesTheHaltedCondition := by
  intro s t hf hstep
  rcases step_cases s with ⟨-, hidle⟩ | ⟨rest, hin, hreset⟩ | ⟨cw, rest, hin, -⟩
  · rw [hidle] at hstep
    cases hstep
    exact .inl ⟨rfl, rfl, rfl⟩
  · rw [hreset] at hstep
    cases hstep
    exact .inr ⟨rest, hin, applyReset_fcause _, Buffer.byteAt_of_bytes_nil (applyReset_bytes _)⟩
  · rw [step_of_command_halted ((halted_eq_true_iff s).mpr hf) hin] at hstep
    cases hstep
    exact .inl ⟨rfl, rfl, rfl⟩

/-- Settles O32: each command is judged by its width before anything else is looked at. -/
theorem illegalWidthFaults : Obligations.IllegalWidthFaults := by
  refine fun s idx w v hr => ⟨fun hw => ?_, fun hw => ?_⟩
  · have hrange : decide (1 ≤ w.toNat ∧ w.toNat ≤ 128) = false := decide_eq_false (by omega)
    exact ⟨exec_of_not_wellFormed hr hrange, exec_of_not_wellFormed hr hrange⟩
  · have hbit : decide (w.toNat = 1) = false := decide_eq_false hw
    exact ⟨exec_of_not_wellFormed hr hbit, exec_of_not_wellFormed hr hbit⟩

end Sys2Proof.Machine
end

section
/-! What a step whose move is reset does (R107). -/

namespace Sys2Proof.Machine

variable {s : State} {rest : List HostMove}

/-- A step looks at no latch before it takes a reset, so a halted unit takes one as a running unit does (R107). -/
theorem step_of_reset (hin : s.inputs = .reset :: rest) : step s = .next (applyReset { s with inputs := rest }) := by
  rw [step, nextMove, hin]
  rfl

/-- Settles O39: the step is the reset itself, which lists no byte and writes nothing but the bytes and FCAUSE. -/
theorem resetZeroesTheUnit : Obligations.ResetZeroesTheUnit := fun _ _ hin =>
  ⟨_, step_of_reset hin, Buffer.byteAt_of_bytes_nil (applyReset_bytes _), applyReset_fcause _, applyReset_len _,
    applyReset_responses _, applyReset_inputs _⟩

end Sys2Proof.Machine
end

section
/-! The encoder and the opcode table's match and mask pairs, judged against the decoder (R35, R39). -/

namespace Sys2Proof

open Sys2Proof.Laws.EncodeFields

variable {cw : CommandWord} {i : Instr}

/-- A word that decodes is the word of its command: the opcode and the operands are all of it (R35). -/
theorem encode_of_decode (hd : decode cw = .ok i) : encode i = cw := by
  obtain ⟨hopc, hfields⟩ := decode_eq_ok_iff.mp hd
  rw [← packCommand_fields cw]
  cases i <;> cases hfields <;> exact congrArg (packCommand · _ _ _) (BitVec.eq_of_toNat_eq hopc.symm)

/-- Settles O1: packing puts every operand in its field, and the fields are the whole word. -/
theorem decodeEncodeAgree : Obligations.DecodeEncodeAgree :=
  ⟨decode_encode, fun _ _ => encode_of_decode⟩

theorem exists_decode_bext_iff : (∃ idx w v, decode cw = .ok (.bext idx w v)) ↔ (opcField cw).toNat = 1 := by
  simp [decode_eq_ok_iff, opcode, operands]

theorem exists_decode_bins_iff : (∃ idx w v, decode cw = .ok (.bins idx w v)) ↔ (opcField cw).toNat = 2 := by
  simp [decode_eq_ok_iff, opcode, operands]

theorem exists_decode_btst_iff (w : WidthField) :
    (∃ idx v, decode cw = .ok (.btst idx w v)) ↔ (opcField cw).toNat = 3 ∧ (widthField cw).toNat = w.toNat := by
  simp [decode_eq_ok_iff, opcode, operands, BitVec.toNat_inj]

theorem exists_decode_bset_iff (w : WidthField) :
    (∃ idx v, decode cw = .ok (.bset idx w v)) ↔ (opcField cw).toNat = 4 ∧ (widthField cw).toNat = w.toNat := by
  simp [decode_eq_ok_iff, opcode, operands, BitVec.toNat_inj]

/-- A mask of the top `k` bits of the word compares the number those bits are. -/
theorem and_topMask_eq_iff (n k m : Nat) (hnk : n + k = 176) (hm : m < 2 ^ k) :
    cw &&& (BitVec.ofNat 176 (2 ^ k - 1) <<< n) = BitVec.ofNat 176 m <<< n ↔ cw.toNat / 2 ^ n = m := by
  have hm' : m < 2 ^ 176 := hm.trans_le (Nat.pow_le_pow_right (by omega) (by omega))
  have hmask : cw &&& (BitVec.ofNat 176 (2 ^ k - 1) <<< n) = (cw >>> n) <<< n := by
    apply BitVec.eq_of_getLsbD_eq
    intro j hj
    simp only [BitVec.getLsbD_and, BitVec.getLsbD_shiftLeft, BitVec.getLsbD_ushiftRight, BitVec.getLsbD_ofNat,
      Nat.testBit_two_pow_sub_one]
    by_cases hjn : j < n
    · simp [hjn]
    · simp [hjn, hj, show j - n < 176 by omega, show j - n < k by omega, show n + (j - n) = j by omega]
  have hfit (a : Nat) (ha : a < 2 ^ k) : a * 2 ^ n < 2 ^ 176 :=
    calc a * 2 ^ n < 2 ^ k * 2 ^ n := Nat.mul_lt_mul_of_pos_right ha (Nat.two_pow_pos n)
      _ = 2 ^ 176 := by rw [← pow_add, Nat.add_comm, hnk]
  have hcw : cw.toNat / 2 ^ n < 2 ^ k := Nat.div_lt_of_lt_mul (by rw [← pow_add, hnk]; exact cw.isLt)
  rw [hmask, ← BitVec.toNat_inj, BitVec.toNat_shiftLeft, BitVec.toNat_shiftLeft, BitVec.toNat_ushiftRight,
    BitVec.toNat_ofNat, Nat.mod_eq_of_lt hm', Nat.shiftRight_eq_div_pow, Nat.shiftLeft_eq, Nat.shiftLeft_eq,
    Nat.mod_eq_of_lt (hfit _ hcw), Nat.mod_eq_of_lt (hfit _ hm)]
  exact Nat.mul_left_inj (Nat.two_pow_pos n).ne'

/-- Settles O4: a mask of OPC compares the opcode, a mask of OPC and WIDTH compares both, and the decoder picks the
command by the opcode. -/
theorem tableRowsPickTheirCommands : Obligations.TableRowsPickTheirCommands := by
  intro cw
  have hopc (m : Nat) (hm : m < 2 ^ 8) :
      cw &&& (0xFF#176 <<< 168) = BitVec.ofNat 176 m <<< 168 ↔ (opcField cw).toNat = m :=
    opcField_toNat cw ▸ and_topMask_eq_iff 168 8 m rfl hm
  have hopcWidth (opc w : Nat) (hopc : opc < 2 ^ 8) (hw : w < 2 ^ 8) :
      cw &&& (0xFFFF#176 <<< 160) = BitVec.ofNat 176 (opc * 2 ^ 8 + w) <<< 160 ↔
        (opcField cw).toNat = opc ∧ (widthField cw).toNat = w := by
    refine (and_topMask_eq_iff 160 16 (opc * 2 ^ 8 + w) rfl (by omega)).trans ?_
    rw [opcField_toNat, widthField_toNat]
    omega
  exact ⟨(hopc 1 (by decide)).trans exists_decode_bext_iff.symm,
    (hopc 2 (by decide)).trans exists_decode_bins_iff.symm,
    (hopcWidth 3 1 (by decide) (by decide)).trans (exists_decode_btst_iff 1#8).symm,
    (hopcWidth 4 1 (by decide) (by decide)).trans (exists_decode_bset_iff 1#8).symm⟩

/-- Settles O2: each word is one closed value of the decoder. -/
theorem specWordsDecode : Obligations.SpecWordsDecode := ⟨rfl, rfl, rfl, rfl, rfl⟩

end Sys2Proof

namespace Sys2Proof.Machine

/-- Settles O8: a running unit decodes the word it is presented and runs its command. -/
theorem stepRunsTheDecodedCommand : Obligations.StepRunsTheDecodedCommand := fun _ _ _ _ => step_of_decode_ok

/-- A table word of the full length is the command word of that number (R35). -/
theorem tableWord_toNat (cw : CommandWord) : tableWord 176 cw.toNat = cw := by
  rw [tableWord, Nat.mod_eq_of_lt cw.isLt, BitVec.ofNat_toNat, BitVec.setWidth_eq]

theorem decodeTableWord_encode (i : Instr) : decodeTableWord 176 (encode i).toNat = some i := by
  rw [decodeTableWord, tableWord_toNat, decode_encode]

/-- Settles O9: the table word of a command is its word, the one move in front of the others. -/
theorem presentedTableWordRunsNext : Obligations.PresentedTableWordRunsNext := by
  intro s i hr
  refine ⟨decodeTableWord_encode i, ?_⟩
  rw [State.withFetchWord, tableWord_toNat]
  exact step_of_decode_ok (s := presentNext (encode i) s) hr (presentNext_inputs s _) (decode_encode i)

end Sys2Proof.Machine
end

section
/-! What a command keeps, read off `CommandEffect`, and what a step can do, said once (R19, R40, R99). -/

namespace Sys2Proof.Machine

variable {s t : State}

theorem CommandEffect.len (he : CommandEffect s t) : t.buffer.len = s.buffer.len := by
  cases he with
  | stores _ _ hl => exact hl
  | silent | faults | answers => rfl

theorem CommandEffect.inputs (he : CommandEffect s t) : t.inputs = s.inputs := by
  cases he <;> rfl

/-- A fault writes a legal code, and a store keeps the canonical form; nothing else is written (R10, R12). -/
theorem CommandEffect.inv (he : CommandEffect s t) (hI : s.Inv) : t.Inv := by
  cases he with
  | silent | answers => exact hI
  | faults _ c => exact ⟨hI.1, c.code_legal⟩
  | stores _ _ _ hwf => exact ⟨hwf hI.1, hI.2⟩

theorem CommandEffect.eq_of_not_running (he : CommandEffect s t) (hr : ¬ s.running) : t = s := by
  cases he with
  | silent => rfl
  | faults h | answers h | stores h => exact absurd ((halted_eq_false_iff s).mp h) hr

theorem CommandEffect.one_response (he : CommandEffect s t) (hr : s.running) :
    ∃ r, t.responses = s.responses ++ [r] ∧ (r.status = statusOk ↔ t.running) ∧ r.status = t.fcause := by
  cases he with
  | silent h => exact absurd hr ((halted_eq_true_iff s).mp h)
  | faults _ c => exact ⟨_, raiseFault_responses s c, Iff.rfl, rfl⟩
  | answers | stores => exact ⟨_, rfl, iff_of_true rfl hr, hr.symm⟩

theorem CommandEffect.fcause (he : CommandEffect s t) :
    t.fcause = s.fcause ∨ s.running ∧ ∃ c : FaultCause, t.fcause = c.code := by
  cases he with
  | silent | answers | stores => exact .inl rfl
  | faults h c => exact .inr ⟨(halted_eq_false_iff s).mp h, c, rfl⟩

theorem FaultCause.code_cases (c : FaultCause) : c.code = 0x01#8 ∨ c.code = 0x02#8 ∨ c.code = 0x03#8 := by
  cases c <;> decide

/-- What a step can do: nothing, a reset, or what a command can do. -/
inductive StepEffect (s : State) : State → Prop where
  | idle : StepEffect s s
  | reset (rest : List HostMove) (hin : s.inputs = .reset :: rest) :
      StepEffect s (applyReset { s with inputs := rest })
  | command (cw : CommandWord) (rest : List HostMove) (hin : s.inputs = .command cw :: rest) {t : State}
      (he : CommandEffect { s with inputs := rest } t) : StepEffect s t

theorem step_effect (s : State) : ∃ t, step s = .next t ∧ StepEffect s t := by
  rcases step_cases s with ⟨-, hidle⟩ | ⟨rest, hin, hreset⟩ | ⟨cw, rest, hin, hcommand⟩
  · exact ⟨_, hidle, .idle⟩
  · exact ⟨_, hreset, .reset rest hin⟩
  · obtain ⟨t, ht, he⟩ := presentCommand_effect cw { s with inputs := rest }
    exact ⟨t, hcommand.trans ht, .command cw rest hin he⟩

theorem stepEffect_of_step (h : step s = .next t) : StepEffect s t := by
  obtain ⟨u, hu, he⟩ := step_effect s
  rw [hu] at h
  cases h
  exact he

/-- The reset unit of any length lists no byte and has the legal FCAUSE 0x00 (R18). -/
theorem zeroed_inv (L : Config.BufferLength) : (State.zeroed L).Inv := ⟨rfl, rfl⟩

/-- Settles O41: the reset state is the zeroed unit of length `Config.resetLength`. -/
theorem resetMeetsTheInvariant : Obligations.ResetMeetsTheInvariant := ⟨zeroed_inv Config.resetLength, zeroed_inv⟩

/-- Settles O42: an idle step changes nothing, reset empties the list of bytes, and every command keeps the invariant. -/
theorem stepKeepsTheInvariant : Obligations.StepKeepsTheInvariant := by
  intro s t hI hstep
  cases stepEffect_of_step hstep with
  | idle => exact hI
  | reset => exact ⟨rfl, rfl⟩
  | command _ _ _ he => exact he.inv hI

/-- Settles O43: neither reset nor a command writes the length. -/
theorem stepKeepsTheLength : Obligations.StepKeepsTheLength := by
  intro s t hstep
  cases stepEffect_of_step hstep with
  | idle => rfl
  | reset => exact applyReset_len _
  | command _ _ _ he => exact he.len

theorem step_total (s : State) : ∃ t, step s = .next t := (step_effect s).imp fun _ => And.left

theorem exec_total (i : Instr) (s : State) : ∃ t, exec i s = .next t := (exec_effect i s).imp fun _ => And.left

/-- Settles O44: whatever a step or a command does, it is one of the effects, and each is a next state. -/
theorem everyStepAnswers : Obligations.EveryStepAnswers := ⟨step_total, exec_total⟩

/-- Settles O37: of the effects of a step only a fault and reset write FCAUSE. -/
theorem latchIsWrittenByFaultAndResetOnly : Obligations.LatchIsWrittenByFaultAndResetOnly := by
  intro s t hstep hne
  cases stepEffect_of_step hstep with
  | idle => exact absurd rfl hne
  | reset rest hin => exact .inr ⟨applyReset_fcause _, rest, hin⟩
  | command cw rest hin he =>
    obtain hsame | ⟨hr, c, hc⟩ := he.fcause
    · exact absurd hsame hne
    · exact .inl ⟨hr, hc ▸ c.code_cases, cw, rest, hin⟩

theorem Response.word_toNat (r : Response) : r.word.toNat = r.status.toNat * 2 ^ 128 + r.result.toNat := by
  rw [Response.word, BitVec.toNat_append, Nat.shiftLeft_eq_mul_pow, Nat.mul_comm,
    Nat.two_pow_add_eq_or_of_lt r.result.isLt]

/-- Settles O5: a command appends one response, whose STATUS is the latch it leaves; a halted unit ignores its word. -/
theorem oneResponsePerExecutedWord : Obligations.OneResponsePerExecutedWord := by
  refine ⟨Response.word_toNat, fun s cw rest hin => ?_⟩
  obtain ⟨t, ht, he⟩ := presentCommand_effect cw { s with inputs := rest }
  exact ⟨t, (step_of_command hin).trans ht, he.inputs, he.one_response,
    fun hr => by rw [he.eq_of_not_running hr]⟩

theorem exec_of_halted {i : Instr} (hh : s.halted = true) : exec i s = .next s := by
  obtain ⟨effect, he⟩ := exec_eq_runCommand i s
  rw [he, runCommand_halted hh]

/-- Settles O35: the word of a halted unit is dropped unread, no command's frame lets a halted state through, and a
successful run ends running by its definition. -/
theorem haltedUnitExecutesNothing : Obligations.HaltedUnitExecutesNothing := by
  refine ⟨fun s cw rest hf hin => ?_, fun s i hf => ?_, fun cws s t answers hrun => ?_⟩
  · exact step_of_command_halted ((halted_eq_true_iff s).mpr hf) hin
  · exact exec_of_halted ((halted_eq_true_iff s).mpr hf)
  · obtain ⟨-, -, hr, -⟩ := hrun
    exact (halted_eq_false_iff t).mpr hr

end Sys2Proof.Machine
end

section
/-! The record of responses is written and never read: a run is the same run after any earlier answers (R13, R19). -/

namespace Sys2Proof.Machine

/-- `s` with these answers received before its own. -/
def State.afterAnswers (past : List Response) (s : State) : State := { s with responses := past ++ s.responses }

/-- An outcome with its next state, if it is one, changed by `f`. -/
def mapNext (f : State → State) : Host.Outcome State Fault Refusal → Host.Outcome State Fault Refusal
  | .next t => .next (f t)
  | .fault r => .fault r
  | .refused r => .refused r

@[simp] theorem mapNext_next (f : State → State) (t : State) : mapNext f (.next t) = .next (f t) := rfl

variable (past : List Response) (s : State)

@[simp] theorem afterAnswers_buffer : (s.afterAnswers past).buffer = s.buffer := rfl
@[simp] theorem afterAnswers_fcause : (s.afterAnswers past).fcause = s.fcause := rfl
@[simp] theorem afterAnswers_inputs : (s.afterAnswers past).inputs = s.inputs := rfl
@[simp] theorem afterAnswers_responses : (s.afterAnswers past).responses = past ++ s.responses := rfl
@[simp] theorem afterAnswers_halted : (s.afterAnswers past).halted = s.halted := rfl

@[simp] theorem respond_afterAnswers (st : BitVec 8) (r : Value) :
    respond st r (s.afterAnswers past) = (respond st r s).afterAnswers past := by
  simp [respond, State.afterAnswers]

@[simp] theorem raiseFault_afterAnswers (c : FaultCause) :
    raiseFault c (s.afterAnswers past) = (raiseFault c s).afterAnswers past :=
  respond_afterAnswers past { s with fcause := c.code } _ _

theorem answerValue_afterAnswers (r : Except Fault Value) :
    answerValue r (s.afterAnswers past) = mapNext (State.afterAnswers past) (answerValue r s) := by
  cases r with
  | ok v => exact congrArg Host.Outcome.next (respond_afterAnswers past s _ _)
  | error f => rfl

theorem takeBuffer_afterAnswers (b : Except Fault Buffer) :
    takeBuffer b (s.afterAnswers past) = mapNext (State.afterAnswers past) (takeBuffer b s) := by
  cases b with
  | ok B => exact congrArg Host.Outcome.next (respond_afterAnswers past { s with buffer := B } _ _)
  | error f => rfl

theorem runCommand_afterAnswers (widthLegal : Bool) (i w : Nat) (effect : Host.Outcome State Fault Refusal) :
    runCommand widthLegal i w (mapNext (State.afterAnswers past) effect) (s.afterAnswers past) =
      mapNext (State.afterAnswers past) (runCommand widthLegal i w effect s) := by
  simp only [runCommand, afterAnswers_halted, afterAnswers_buffer, raiseFault_afterAnswers,
    apply_ite (mapNext (State.afterAnswers past)), mapNext_next]

theorem exec_afterAnswers (i : Instr) :
    exec i (s.afterAnswers past) = mapNext (State.afterAnswers past) (exec i s) := by
  cases i with
  | bext | btst =>
    exact (congrArg (runCommand _ _ _ · _) (answerValue_afterAnswers ..)).trans (runCommand_afterAnswers ..)
  | bins | bset =>
    exact (congrArg (runCommand _ _ _ · _) (takeBuffer_afterAnswers ..)).trans (runCommand_afterAnswers ..)

theorem presentCommand_afterAnswers (cw : CommandWord) :
    presentCommand cw (s.afterAnswers past) = mapNext (State.afterAnswers past) (presentCommand cw s) := by
  cases hh : s.halted with
  | true => rw [presentCommand_of_halted cw hh, presentCommand_of_halted (s := s.afterAnswers past) cw hh, mapNext_next]
  | false =>
    simp only [presentCommand, afterAnswers_halted, hh]
    cases decode cw with
    | error e => exact congrArg Host.Outcome.next (raiseFault_afterAnswers past s _)
    | ok i => exact exec_afterAnswers past s i

theorem step_afterAnswers : step (s.afterAnswers past) = mapNext (State.afterAnswers past) (step s) := by
  rcases step_cases s with ⟨hin, hidle⟩ | ⟨rest, hin, hreset⟩ | ⟨cw, rest, hin, hcommand⟩
  · rw [hidle, step, nextMove, afterAnswers_inputs, hin]
    rfl
  · rw [hreset, step_of_reset (s := s.afterAnswers past) hin]
    rfl
  · rw [hcommand, step_of_command (s := s.afterAnswers past) hin]
    exact presentCommand_afterAnswers past { s with inputs := rest } cw

theorem run_afterAnswers (n : Nat) :
    ∃ t, Sys2Proof.core.run n s = .next t ∧
      ∀ past, Sys2Proof.core.run n (s.afterAnswers past) = .next (t.afterAnswers past) := by
  induction n generalizing s with
  | zero => exact ⟨s, rfl, fun _ => rfl⟩
  | succ n ih =>
    obtain ⟨u, hu⟩ := step_total s
    obtain ⟨t, ht, hpast⟩ := ih u
    refine ⟨t, (run_succ_of_step n hu).trans ht, fun past => ?_⟩
    have hu' : step (s.afterAnswers past) = .next (u.afterAnswers past) := by rw [step_afterAnswers, hu, mapNext_next]
    exact (run_succ_of_step n hu').trans (hpast past)

/-- `s` as it would be had it answered nothing yet. -/
def State.unanswered (s : State) : State := { s with responses := [] }

theorem unanswered_afterAnswers : s.unanswered.afterAnswers s.responses = s := by
  rw [State.unanswered, State.afterAnswers, List.append_nil]

theorem unanswered_eq {s s' : State} (hb : s.buffer = s'.buffer) (hf : s.fcause = s'.fcause)
    (hin : s.inputs = s'.inputs) : s.unanswered = s'.unanswered :=
  State.eq_of_fields hb hf hin rfl

/-- Settles O45: the two machines are one machine that has answered nothing, each after its own earlier answers. -/
theorem noHiddenState : Obligations.NoHiddenState := by
  intro n s s' hb hf hin
  obtain ⟨t, -, hrun⟩ := run_afterAnswers s.unanswered n
  have hs := hrun s.responses
  have hs' := hrun s'.responses
  rw [unanswered_afterAnswers] at hs
  rw [unanswered_eq hb hf hin, unanswered_afterAnswers] at hs'
  exact ⟨_, _, t.responses, hs, hs', rfl, rfl, rfl, rfl, rfl⟩

end Sys2Proof.Machine
end

section
/-! A run of legal commands is that run on a bare array of bits (R31). -/

namespace Sys2Proof.Machine

variable {s t : State} {i : Instr} {is : List Instr}

/-- A legal command answers as on an array of bits and leaves the buffer with the array's bits, in canonical form. -/
theorem exec_simulates (hI : s.Inv) (hr : s.running) (hl : legalIn s.buffer.len.val i) :
    ∃ B : Buffer, exec i s = .next (({ s with buffer := B } : State).answered (bitAnswer i s.buffer.bitAt)) ∧
      B.len = s.buffer.len ∧ B.wf = true ∧ B.bitAt = bitWrite i s.buffer.bitAt := by
  obtain ⟨hwf, hb⟩ := hl
  cases i with
  | bext idx w v => exact ⟨s.buffer, exec_bext_of_inRange v hr (of_decide_eq_true hwf) hb, rfl, hI.1, rfl⟩
  | btst idx w v => exact ⟨s.buffer, exec_btst_of_inRange v hr (of_decide_eq_true hwf) hb, rfl, hI.1, rfl⟩
  | bins idx w v =>
    obtain ⟨B, hexec, hlen, hB, hbits⟩ := exec_bins_of_inRange v hr hI (of_decide_eq_true hwf) hb
    exact ⟨B, hexec, hlen, hB, funext hbits⟩
  | bset idx w v =>
    obtain ⟨B, hexec, hlen, hB, hbits⟩ := exec_bset_of_inRange v hr hI (of_decide_eq_true hwf) hb
    exact ⟨B, hexec, hlen, hB, funext hbits⟩

/-- `t` is what the commands `is`, read on an array of bits, make of `s`. -/
structure RunsAs (is : List Instr) (s t : State) : Prop where
  len : t.buffer.len = s.buffer.len
  wf : t.buffer.wf = true
  bits : t.buffer.bitAt = (bitRun is s.buffer.bitAt).1
  fcause : t.fcause = s.fcause
  inputs : t.inputs = []
  responses : t.responses = s.responses ++ (bitRun is s.buffer.bitAt).2

/-- The simulation, one command at a time: the rest of the run starts from the bits the first command leaves. -/
theorem run_runsAs (hI : s.Inv) (hr : s.running) (hl : ∀ i ∈ is, legalIn s.buffer.len.val i)
    (hin : s.inputs = is.map fun i => .command (encode i)) :
    ∃ t, Sys2Proof.core.run is.length s = .next t ∧ RunsAs is s t := by
  induction is generalizing s with
  | nil => exact ⟨s, rfl, rfl, hI.1, rfl, rfl, hin, (List.append_nil _).symm⟩
  | cons i is ih =>
    set rest : List HostMove := is.map fun i => .command (encode i)
    obtain ⟨B, hexec, hlen, hB, hbits⟩ :=
      exec_simulates (s := { s with inputs := rest }) hI hr (hl i List.mem_cons_self)
    obtain ⟨t, hrun, ht⟩ := ih (s := ({ s with inputs := rest, buffer := B } : State).answered _) ⟨hB, hI.2⟩ hr
      (fun k hk => by rw [answered_buffer, hlen]; exact hl k (List.mem_cons_of_mem i hk)) rfl
    refine ⟨t, (run_succ_of_step _ ((step_of_decode_ok hr hin (decode_encode i)).trans hexec)).trans hrun,
      ht.len.trans hlen, ht.wf, ?_, ht.fcause, ht.inputs, ?_⟩
    · rw [ht.bits, answered_buffer, hbits]
      rfl
    · rw [ht.responses, answered_buffer, answered_responses, hbits, List.append_assoc]
      rfl

theorem runWords_runsAs (hI : s.Inv) (hr : s.running) (hl : ∀ i ∈ is, legalIn s.buffer.len.val i) :
    ∃ t, runWords (is.map encode) s = .next t ∧ RunsAs is s t := by
  have hin : (is.map encode).map HostMove.command = is.map fun i => .command (encode i) := List.map_map
  obtain ⟨t, hrun, ht⟩ := run_runsAs (s := presentAll (is.map encode) s) hI hr hl hin
  refine ⟨t, ?_, ht.len, ht.wf, ht.bits, ht.fcause, ht.inputs, ht.responses⟩
  rw [runWords, List.length_map]
  exact hrun

theorem runWords_pair_runsAs {i' : Instr} (hI : s.Inv) (hr : s.running) (hl : legalIn s.buffer.len.val i)
    (hl' : legalIn s.buffer.len.val i') :
    ∃ t, runWords [encode i, encode i'] s = .next t ∧ RunsAs [i, i'] s t :=
  runWords_runsAs hI hr (List.forall_mem_cons.mpr ⟨hl, List.forall_mem_singleton.mpr hl'⟩)

theorem length_bitRun_snd (is : List Instr) (bit : Nat → Bool) : (bitRun is bit).2.length = is.length := by
  induction is generalizing bit with
  | nil => rfl
  | cons i is ih => exact congrArg (· + 1) (ih (bitWrite i bit))

theorem status_of_mem_bitRun_snd {bit : Nat → Bool} {r : Response} (h : r ∈ (bitRun is bit).2) :
    r.status = statusOk := by
  induction is generalizing bit with
  | nil => cases h
  | cons i is ih =>
    obtain rfl | h := List.mem_cons.mp h
    · rfl
    · exact ih h

/-- Settles O29: the simulation, with the responses counted and each of STATUS 0. -/
theorem runIsAnArrayOfBits : Obligations.RunIsAnArrayOfBits := by
  intro s is hI hr hl
  obtain ⟨t, hrun, ht⟩ := runWords_runsAs hI hr hl
  refine ⟨t, ⟨hr, hrun, ht.fcause.trans hr, ht.responses, ?_, fun _ => status_of_mem_bitRun_snd⟩, congrFun ht.bits⟩
  rw [length_bitRun_snd, List.length_map]

end Sys2Proof.Machine
end

section
/-! Laws of reading and writing ranges (R61, R72), from the run on an array of bits. -/

namespace Sys2Proof.Machine

variable {s t : State} {idx idx' : BitIndex} {w w' : WidthField}

theorem legalIn_bext {L : Nat} (v : Value) (h1 : 1 ≤ w.toNat) (h128 : w.toNat ≤ 128)
    (hb : idx.toNat + w.toNat ≤ 8 * L) : legalIn L (.bext idx w v) := ⟨decide_eq_true ⟨h1, h128⟩, hb⟩

theorem legalIn_bins {L : Nat} (v : Value) (h1 : 1 ≤ w.toNat) (h128 : w.toNat ≤ 128)
    (hb : idx.toNat + w.toNat ≤ 8 * L) : legalIn L (.bins idx w v) := ⟨decide_eq_true ⟨h1, h128⟩, hb⟩

theorem bitsValue_congr {bit bit' : Nat → Bool} {i w : Nat} (h : ∀ j, i ≤ j → j < i + w → bit j = bit' j) :
    bitsValue bit i w = bitsValue bit' i w := by
  induction w with
  | zero => rfl
  | succ w ih =>
    rw [bitsValue, bitsValue, ih fun j hi hj => h j hi (Nat.lt_succ_of_lt hj), h (i + w) (by omega) (by omega)]

theorem bitWrite_bins (idx : BitIndex) (w : WidthField) (v : Value) (bit : Nat → Bool) (j : Nat) :
    bitWrite (.bins idx w v) bit j =
      if idx.toNat ≤ j ∧ j < idx.toNat + w.toNat then v.getLsbD (j - idx.toNat) else bit j := rfl

/-- What is written to a range is its value, modulo `2^w` (R68, R72). -/
theorem bitsValue_bitWrite_bins (idx : BitIndex) (w : WidthField) (v : Value) (bit : Nat → Bool) :
    bitsValue (bitWrite (.bins idx w v) bit) idx.toNat w.toNat = v.toNat % 2 ^ w.toNat := by
  apply Nat.eq_of_testBit_eq
  intro k
  rw [testBit_bitsValue, Nat.testBit_mod_two_pow]
  by_cases hk : k < w.toNat
  · rw [bitWrite_bins, if_pos (by omega), Nat.add_sub_cancel_left, BitVec.testBit_toNat]
  · simp [hk]

theorem bitsValue_bitWrite_bins_of_disjoint (v : Value) (bit : Nat → Bool)
    (hd : disjointRanges idx.toNat w.toNat idx'.toNat w'.toNat) :
    bitsValue (bitWrite (.bins idx w v) bit) idx'.toNat w'.toNat = bitsValue bit idx'.toNat w'.toNat :=
  bitsValue_congr fun j hi hj => by
    rw [bitWrite_bins, if_neg]
    omega

theorem bitWrite_bins_comm (v v' : Value) (bit : Nat → Bool)
    (hd : disjointRanges idx.toNat w.toNat idx'.toNat w'.toNat) :
    bitWrite (.bins idx w v) (bitWrite (.bins idx' w' v') bit) =
      bitWrite (.bins idx' w' v') (bitWrite (.bins idx w v) bit) := by
  funext j
  simp only [bitWrite_bins]
  by_cases hj : idx.toNat ≤ j ∧ j < idx.toNat + w.toNat
  · rw [if_pos hj, if_neg (by omega), if_pos hj]
  · rw [if_neg hj, if_neg hj]

theorem bitWrite_bins_bins (v v' : Value) (bit : Nat → Bool) :
    bitWrite (.bins idx w v') (bitWrite (.bins idx w v) bit) = bitWrite (.bins idx w v') bit := by
  funext j
  simp only [bitWrite_bins]
  split <;> rfl

theorem bitWrite_bins_bitsValue (bit : Nat → Bool) (h128 : w.toNat ≤ 128) :
    bitWrite (.bins idx w (BitVec.ofNat 128 (bitsValue bit idx.toNat w.toNat))) bit = bit := by
  funext j
  rw [bitWrite_bins]
  split
  · rename_i hj
    simp only [BitVec.getLsbD_ofNat, testBit_bitsValue]
    rw [decide_eq_true (by omega), decide_eq_true (by omega), Nat.add_sub_cancel' hj.1, Bool.true_and, Bool.true_and]
  · rfl

/-- Two runs from one state end with one buffer when they do on the array. -/
theorem RunsAs.buffer_eq {t' : State} {is is' : List Instr} (h : RunsAs is s t) (h' : RunsAs is' s t')
    (hbits : (bitRun is s.buffer.bitAt).1 = (bitRun is' s.buffer.bitAt).1) : t.buffer = t'.buffer :=
  Buffer.ext_of_bits h.wf h'.wf (h.len.trans h'.len.symm) fun j => by rw [h.bits, h'.bits, hbits]

/-- Settles O23: the read of the run finds the bits the write put there. -/
theorem writtenFieldReadsBack : Obligations.WrittenFieldReadsBack := by
  intro s idx w v u hI hr h1 h128 hb
  obtain ⟨t, hrun, ht⟩ := runWords_pair_runsAs hI hr (legalIn_bins v h1 h128 hb) (legalIn_bext u h1 h128 hb)
  refine ⟨t, hrun, ht.fcause.trans hr, ht.responses.trans ?_⟩
  simp only [bitRun, bitAnswer, bitsValue_bitWrite_bins, statusOk]

/-- Settles O24: the read of the run finds bits the write left alone. -/
theorem disjointReadDoesNotSeeTheWrite : Obligations.DisjointReadDoesNotSeeTheWrite := by
  intro s idx idx' w w' v u hI hr h1 h128 hb h1' h128' hb' hd
  obtain ⟨t, hrun, ht⟩ := runWords_pair_runsAs hI hr (legalIn_bins v h1 h128 hb) (legalIn_bext u h1' h128' hb')
  refine ⟨t, hrun, ht.responses.trans ?_⟩
  simp only [bitRun, bitAnswer, bitsValue_bitWrite_bins_of_disjoint v _ hd, statusOk]

/-- Settles O25: on the array the two writes commute, and the bits determine the buffer. -/
theorem disjointWritesCommute : Obligations.DisjointWritesCommute := by
  intro s idx idx' w w' v v' hI hr h1 h128 hb h1' h128' hb' hd
  have hl := legalIn_bins v h1 h128 hb
  have hl' := legalIn_bins v' h1' h128' hb'
  obtain ⟨t, hrun, ht⟩ := runWords_pair_runsAs hI hr hl hl'
  obtain ⟨t', hrun', ht'⟩ := runWords_pair_runsAs hI hr hl' hl
  have hbuffer := ht.buffer_eq ht' (bitWrite_bins_comm v v' _ hd).symm
  have : t = t' := State.eq_of_fields hbuffer (ht.fcause.trans ht'.fcause.symm) (ht.inputs.trans ht'.inputs.symm)
    (ht.responses.trans ht'.responses.symm)
  exact ⟨t, hrun, this ▸ hrun'⟩

/-- Settles O26: on the array the second write covers the first, and the bits determine the buffer. -/
theorem laterWriteToARangeWins : Obligations.LaterWriteToARangeWins := by
  intro s idx w v v' hI hr h1 h128 hb
  have hl' := legalIn_bins v' h1 h128 hb
  obtain ⟨t, hrun, ht⟩ := runWords_pair_runsAs hI hr (legalIn_bins v h1 h128 hb) hl'
  obtain ⟨t', hrun', ht'⟩ := runWords_runsAs hI hr (List.forall_mem_singleton.mpr hl')
  exact ⟨t, t', hrun, hrun', ht.buffer_eq ht' (bitWrite_bins_bins v v' _)⟩

/-- Settles O27: the array is what it was, and the bits determine the buffer. -/
theorem writingBackTheValueChangesNothing : Obligations.WritingBackTheValueChangesNothing := by
  intro s idx w hI hr h1 h128 hb
  obtain ⟨B, hexec, hlen, hwf, hbits⟩ := exec_simulates hI hr (legalIn_bins _ h1 h128 hb)
  rw [bitWrite_bins_bitsValue _ h128] at hbits
  obtain rfl := Buffer.ext_of_bits hwf hI.1 hlen (congrFun hbits)
  exact hexec

/-- Settles O28: the three reads answer the field and its two parts, and the parts do not overlap. -/
theorem fieldReadsSplit : Obligations.FieldReadsSplit := by
  intro s idx idx' w w₁ w₂ v hr h128 h1 h2 hw hidx hb
  refine ⟨_, _, _, exec_bext_of_inRange v hr ⟨by omega, h128⟩ hb,
    exec_bext_of_inRange v hr ⟨h1, by omega⟩ (by omega),
    exec_bext_of_inRange v hr ⟨h2, by omega⟩ (by omega), ?_⟩
  rw [hw, hidx]
  apply BitVec.eq_of_getLsbD_eq
  intro k hk
  simp only [BitVec.getLsbD_or, BitVec.getLsbD_shiftLeft, BitVec.getLsbD_ofNat, testBit_bitsValue]
  by_cases hlow : k < w₁.toNat
  · simp [hk, hlow, show k < w₁.toNat + w₂.toNat by omega]
  · have e : idx.toNat + w₁.toNat + (k - w₁.toNat) = idx.toNat + k := by omega
    have e' : k - w₁.toNat < w₂.toNat ↔ k < w₁.toNat + w₂.toNat := by omega
    simp [hk, hlow, e, e', show k - w₁.toNat < 128 by omega]

end Sys2Proof.Machine
end

section
/-! The walk in closed form, and the laws R51 derives for it (R50, R51). -/

namespace Sys2Proof.Machine

/-- Chunk `k` of the walk of `w` bits from bit index `i`: the bits the range has in byte `i / 8 + k`, the field's own bits
counted from `shift` on (R50). -/
def chunkAt (i w shift k : Nat) : Chunk where
  byte := i / 8 + k
  off := max i (8 * (i / 8 + k)) - 8 * (i / 8 + k)
  c := min (i + w) (8 * (i / 8 + k) + 8) - max i (8 * (i / 8 + k))
  shift := shift + (max i (8 * (i / 8 + k)) - i)

/-- The loop makes one chunk for each byte the range touches. -/
theorem walk_eq_map_chunkAt {fuel i remaining : Nat} (shift : Nat) (h1 : 1 ≤ remaining) (h2 : remaining ≤ fuel) :
    walk fuel i remaining shift = (List.range (bytesTouched i remaining)).map (chunkAt i remaining shift) := by
  induction fuel generalizing i remaining shift with
  | zero => omega
  | succ n ih =>
    rw [walk_succ]
    set c := min (8 - i % 8) remaining with hc
    have hhead : chunkAt i remaining shift 0 = { byte := i / 8, off := i % 8, c := c, shift := shift } := by
      simp only [chunkAt, Chunk.mk.injEq]
      omega
    split
    · rename_i hlast
      have hone : bytesTouched i remaining = 1 := by unfold bytesTouched; omega
      rw [hone, List.range_one, List.map_singleton, hhead]
    · rename_i hmore
      have hcount : bytesTouched i remaining = bytesTouched (i + c) (remaining - c) + 1 := by
        unfold bytesTouched; omega
      have htail (k : Nat) :
          chunkAt (i + c) (remaining - c) (shift + c) k = chunkAt i remaining shift (k + 1) := by
        simp only [chunkAt, Chunk.mk.injEq]
        omega
      rw [ih (shift + c) (by omega) (by omega), hcount, List.range_succ_eq_map, List.map_cons, List.map_map, hhead]
      exact congrArg _ (List.map_congr_left fun k _ => htail k)

variable {i w : Nat}

theorem chunks_eq_map_chunkAt (i : Nat) (hw : 1 ≤ w) :
    chunks i w = (List.range (bytesTouched i w)).map (chunkAt i w 0) :=
  walk_eq_map_chunkAt 0 hw (le_refl w)

theorem length_chunks (i : Nat) (hw : 1 ≤ w) : (chunks i w).length = bytesTouched i w := by
  rw [chunks_eq_map_chunkAt i hw, List.length_map, List.length_range]

theorem getElem?_chunks_eq_some {k : Nat} {q : Chunk} (hw : 1 ≤ w) (h : (chunks i w)[k]? = some q) :
    k < bytesTouched i w ∧ q = chunkAt i w 0 k := by
  rw [chunks_eq_map_chunkAt i hw, List.getElem?_map, Option.map_eq_some_iff] at h
  obtain ⟨k', hk', rfl⟩ := h
  obtain ⟨hk, rfl⟩ := List.getElem?_eq_some_iff.mp hk'
  rw [List.getElem_range]
  exact ⟨by simpa using hk, rfl⟩

theorem mem_chunks_iff {q : Chunk} (hw : 1 ≤ w) :
    q ∈ chunks i w ↔ ∃ k < bytesTouched i w, chunkAt i w 0 k = q := by
  simp [chunks_eq_map_chunkAt i hw]

theorem sum_c_walk {fuel i remaining : Nat} (shift : Nat) (h : remaining ≤ fuel) :
    ((walk fuel i remaining shift).map Chunk.c).sum = remaining := by
  induction fuel generalizing i remaining shift with
  | zero => exact (Nat.le_zero.mp h).symm
  | succ n ih =>
    rw [walk_succ, List.map_cons, List.sum_cons]
    set c := min (8 - i % 8) remaining with hc
    dsimp only
    split
    · rw [List.map_nil, List.sum_nil]
      omega
    · rw [ih (shift + c) (by omega)]
      omega

/-- The bits of the range in byte `i / 8 + k` are those the chunk covers, so the chunk of a bit is that of its byte. -/
theorem covered_iff_existsUnique_chunk (i : Nat) (hw : 1 ≤ w) (j : Nat) :
    (i ≤ j ∧ j < i + w) ↔
      ∃! q : Chunk, q ∈ chunks i w ∧ 8 * q.byte + q.off ≤ j ∧ j < 8 * q.byte + q.off + q.c := by
  constructor
  · intro hj
    refine ⟨chunkAt i w 0 (j / 8 - i / 8), ⟨(mem_chunks_iff hw).mpr ⟨_, ?_, rfl⟩, ?_⟩, ?_⟩
    · unfold bytesTouched
      omega
    · simp only [chunkAt]
      omega
    · rintro q ⟨hq, hcover⟩
      obtain ⟨k, hk, rfl⟩ := (mem_chunks_iff hw).mp hq
      simp only [chunkAt] at hcover
      rw [show k = j / 8 - i / 8 by omega]
  · rintro ⟨q, ⟨hq, hcover⟩, -⟩
    obtain ⟨k, hk, rfl⟩ := (mem_chunks_iff hw).mp hq
    simp only [chunkAt] at hcover
    omega

/-- Settles O20: each law is arithmetic of the closed form; only the sum of the `c` is read off the loop. -/
theorem walkLaws : Obligations.WalkLaws := by
  intro i w h1 h128
  refine ⟨?_, fun k q hq => ?_, fun k q q' hq hq' => ?_, sum_c_walk 0 (le_refl w),
    covered_iff_existsUnique_chunk i h1⟩
  · rw [length_chunks i h1]
    unfold bytesTouched
    omega
  · obtain ⟨hk, rfl⟩ := getElem?_chunks_eq_some h1 hq
    unfold bytesTouched at hk
    simp only [chunkAt]
    refine ⟨trivial, fun hfirst => ?_, fun hlater => ?_, ?_⟩ <;> omega
  · obtain ⟨-, rfl⟩ := getElem?_chunks_eq_some h1 hq
    obtain ⟨hk, rfl⟩ := getElem?_chunks_eq_some h1 hq'
    unfold bytesTouched at hk
    simp only [chunkAt]
    omega

/-- Refutes O21: the field of 127 bits at bit index 2 has 17 chunks. -/
theorem not_seventeenChunksOnlyAtWidth128 : ¬ Obligations.SeventeenChunksOnlyAtWidth128 := by
  intro h
  have h17 : (chunks 2 127).length = 17 := length_chunks 2 (by decide)
  exact absurd ((h 2 127 (by decide) (by decide)).mp h17) (by decide)

end Sys2Proof.Machine
end

section
/-! BTST and BSET as BEXT and BINS at width 1 (R66, R71). -/

namespace Sys2Proof.Machine

theorem chunks_one (i : Nat) : chunks i 1 = [{ byte := i / 8, off := i % 8, c := 1, shift := 0 }] := by
  have hc : min (8 - i % 8) 1 = 1 := by omega
  rw [chunks, walk_succ, hc, if_pos (Nat.sub_self 1)]

theorem extractChunk_one (b : Byte) (off : Nat) : extractChunk b off 1 = (b.toNat >>> off) &&& 1 := rfl

/-- The Boolean read is the read of a field of one bit, wherever it is (R66). -/
theorem testBitOf_eq_extractField (B : Buffer) (i : Nat) :
    (testBitOf B i).map truthResult = (extractField B i 1).map numberResult := by
  rw [testBitOf, extractField, chunks_one]
  simp only [extractWalk, extractChunk_one, Nat.and_one_is_mod]
  cases B.memRead (i / 8) with
  | error f => rfl
  | ok b =>
    obtain h | h := Nat.mod_two_eq_zero_or_one (b.toNat >>> (i % 8))
    · simp [Except.map, h, truthResult, numberResult]
    · simp [Except.map, h, truthResult, numberResult]

/-- The chunk primitive at one bit is the OR or the AND of BSET (R71). -/
theorem insertChunk_one (b : Byte) {off : Nat} (v : Nat) (ho : off < 8) :
    insertChunk b off 1 v =
      BitVec.ofNat 8 (if v.testBit 0 then b.toNat ||| (1 <<< off) else b.toNat &&& not8 (1 <<< off)) := by
  apply BitVec.eq_of_toNat_eq
  apply Nat.eq_of_testBit_eq
  intro k
  rw [testBit_insertChunk b v (by omega), testBit_setBit b _ ho]
  by_cases hk : k = off
  · rw [if_pos (by omega), if_pos hk, hk, Nat.sub_self]
  · rw [if_neg (by omega), if_neg hk]

theorem insertChunk_one_toNat (b : Byte) {off : Nat} (v : Nat) (ho : off < 8) :
    (insertChunk b off 1 v).toNat =
      if v % 2 = 1 then b.toNat ||| (1 <<< off) else b.toNat &&& not8 (1 <<< off) := by
  have hset : b.toNat ||| (1 <<< off) < 2 ^ 8 := by
    refine Nat.or_lt_two_pow b.isLt ?_
    rw [Nat.one_shiftLeft]
    exact Nat.pow_lt_pow_right (by omega) ho
  have hclear : b.toNat &&& not8 (1 <<< off) < 2 ^ 8 := Nat.and_le_left.trans_lt b.isLt
  simp only [insertChunk_one b v ho, Nat.testBit_zero, decide_eq_true_eq]
  split
  · exact Nat.mod_eq_of_lt hset
  · exact Nat.mod_eq_of_lt hclear

/-- The Boolean write is the write of a field of one bit, in every buffer (R71). -/
theorem writeBit_eq_insertField (B : Buffer) (i v : Nat) : writeBit B i (v.testBit 0) = insertField B i 1 v := by
  rw [writeBit, insertField, chunks_one]
  simp only [insertWalk, insertChunk_one _ v (Nat.mod_lt i (by decide : 8 > 0))]
  cases B.memRead (i / 8) with
  | error f => rfl
  | ok old =>
    dsimp only
    cases B.memWrite (i / 8) _ with
    | error f => rfl
    | ok B' => rfl

theorem bitWidth_illegal_of_ne_one {w : WidthField} (hw : w ≠ 1#8) : decide (w.toNat = 1) = false :=
  decide_eq_false fun h => hw (BitVec.eq_of_toNat_eq h)

/-- Settles O15: the two commands have one frame, and the two reads are one read. -/
theorem btstIsBextAtWidthOne : Obligations.BtstIsBextAtWidthOne :=
  ⟨fun s idx _ _ => congrArg (fun r => runCommand true idx.toNat 1 (answerValue r s) s)
      (testBitOf_eq_extractField s.buffer idx.toNat),
    chunks_one, extractChunk_one, fun _ _ _ _ hr hw => exec_of_not_wellFormed hr (bitWidth_illegal_of_ne_one hw)⟩

/-- Settles O16: the two commands have one frame, and the two writes are one write. -/
theorem bsetIsBinsAtWidthOne : Obligations.BsetIsBinsAtWidthOne :=
  ⟨fun s idx v => congrArg (fun b => runCommand true idx.toNat 1 (takeBuffer b s) s)
      (writeBit_eq_insertField s.buffer idx.toNat v.toNat),
    fun b _ v ho => insertChunk_one_toNat b v ho,
    fun _ _ _ _ hr hw => exec_of_not_wellFormed hr (bitWidth_illegal_of_ne_one hw)⟩

/-- Settles O18: BEXT and BTST do not take VALUE, and BSET takes its truth value only. -/
theorem ignoredBitsChangeNothing : Obligations.IgnoredBitsChangeNothing := fun s idx w _ _ =>
  ⟨rfl, rfl, fun hbit => congrArg
    (fun t => runCommand (bitWidthLegal w.toNat) idx.toNat 1 (takeBuffer (writeBit s.buffer idx.toNat t) s) s) hbit⟩

end Sys2Proof.Machine
end

section
/-! The commands in bounds: completion, the typed result, reads after reset (R24, R64, R76, R108). -/

namespace Sys2Proof.Machine

/-- Settles O14: a legal command answers its result with STATUS 0 and leaves FCAUSE as it was. -/
theorem everyCommandCompletesInBounds : Obligations.EveryCommandCompletesInBounds := by
  intro s idx w v hr
  refine ⟨fun h1 h128 hb => ?_, fun h1 h128 hb => ?_, fun hw hb => ?_, fun hw hb => ?_⟩
  · obtain ⟨B, hexec⟩ := exec_of_legalIn hr (legalIn_bext v h1 h128 hb)
    exact ⟨_, _, hexec, hr, answered_responses _ _⟩
  · obtain ⟨B, hexec⟩ := exec_of_legalIn hr (legalIn_bins v h1 h128 hb)
    exact ⟨_, hexec, hr, answered_responses _ _⟩
  · obtain ⟨B, hexec⟩ := exec_of_legalIn (i := .btst idx w v) hr ⟨decide_eq_true hw, hb⟩
    exact ⟨_, _, hexec, hr, answered_responses _ _⟩
  · obtain ⟨B, hexec⟩ := exec_of_legalIn (i := .bset idx w v) hr ⟨decide_eq_true hw, hb⟩
    exact ⟨_, hexec, hr, answered_responses _ _⟩

/-- The ladder, one rung for each range of widths (R76). -/
theorem container_narrowest {w : Nat} (h1 : 1 ≤ w) (h128 : w ≤ 128) :
    ∃ c ∈ [8, 16, 32, 64, 128], container w = some c ∧ w ≤ c ∧ ∀ c' ∈ [8, 16, 32, 64, 128], w ≤ c' → c ≤ c' := by
  unfold container
  rw [if_neg (by omega)]
  split_ifs <;> simp <;> omega

/-- Settles O47: the rungs inside `[1,128]`, and no rung outside. -/
theorem containerIsTheNarrowestRung : Obligations.ContainerIsTheNarrowestRung := by
  refine fun w => ⟨container_narrowest, fun hw => ?_⟩
  obtain rfl | hw := hw
  · rfl
  · unfold container
    rw [if_neg, if_neg, if_neg, if_neg, if_neg, if_neg] <;> omega

theorem typedValue_eq_of_lt {w : Nat} {r : Value} (h1 : 1 ≤ w) (h128 : w ≤ 128) (hr : r.toNat < 2 ^ w) :
    typedValue w r = some r.toNat := by
  obtain ⟨c, -, hc, hwc, -⟩ := container_narrowest h1 h128
  rw [typedValue, hc, Option.map_some, Nat.mod_eq_of_lt (hr.trans_le (Nat.pow_le_pow_right (by decide) hwc))]

/-- RESULT holds a field's value whole (R42, R63). -/
theorem numberResult_fieldValue_toNat (B : Buffer) (i : Nat) {w : Nat} (h128 : w ≤ 128) :
    (BitVec.ofNat 128 (fieldValue B i w)).toNat = fieldValue B i w :=
  (BitVec.toNat_ofNat ..).trans (Nat.mod_eq_of_lt
    ((bitsValue_lt B.bitAt i w).trans_le (Nat.pow_le_pow_right (by decide) h128)))

/-- Settles O19: RESULT is a sum of `w` bits, and the container has at least `w`. -/
theorem typedResultLosesNothing : Obligations.TypedResultLosesNothing := by
  intro s idx w v hr h1 h128 hb
  have hlt : (BitVec.ofNat 128 (fieldValue s.buffer idx.toNat w.toNat)).toNat < 2 ^ w.toNat :=
    (numberResult_fieldValue_toNat s.buffer idx.toNat h128).trans_lt (bitsValue_lt ..)
  exact ⟨_, exec_bext_of_inRange v hr ⟨h1, h128⟩ hb, hlt, typedValue_eq_of_lt h1 h128 hlt⟩

theorem bitAt_of_bytes_nil {B : Buffer} (h : B.bytes = []) (j : Nat) : B.bitAt j = false := by
  rw [Buffer.bitAt, Buffer.byteAt_of_bytes_nil h]
  exact Nat.zero_testBit _

theorem fieldValue_of_bytes_nil {B : Buffer} (h : B.bytes = []) (i w : Nat) : fieldValue B i w = 0 := by
  apply Nat.eq_of_testBit_eq
  intro k
  rw [testBit_bitsValue, bitAt_of_bytes_nil h, Bool.and_false, Nat.zero_testBit]

/-- Settles O40: reset lists no byte, so every bit that is read is 0. -/
theorem everyRangeReadsZeroAfterReset : Obligations.EveryRangeReadsZeroAfterReset := by
  intro s t rest idx w v hin hstep
  rw [step_of_reset hin] at hstep
  cases hstep
  set t := applyReset { s with inputs := rest }
  refine ⟨fun h1 h128 hb => ?_, fun hb => ?_⟩
  · rw [exec_bext_of_inRange (s := t) v rfl ⟨h1, h128⟩ hb, fieldValue_of_bytes_nil rfl]
  · rw [exec_btst_of_inRange (s := t) v rfl rfl hb, bitAt_of_bytes_nil rfl]
    rfl

end Sys2Proof.Machine
end

section
/-! The frames of the four commands (R27, R59, R69). -/

namespace Sys2Proof.Machine

variable {s t : State} {i : Instr}

/-- What a command makes of a state that it does not complete in, or that it is legal there (R46, R100). -/
theorem exec_eq_next_cases (h : exec i s = .next t) :
    t = s ∧ ¬ s.running ∨ s.running ∧ (t = s.faulted .illegalWidth ∨ t = s.faulted .boundsViolation) ∨
      s.running ∧ legalIn s.buffer.len.val i := by
  by_cases hr : s.running
  · cases hwf : i.wellFormed with
    | false =>
      rw [exec_of_not_wellFormed hr hwf] at h
      cases h
      exact .inr (.inl ⟨hr, .inl rfl⟩)
    | true =>
      by_cases hb : 8 * s.buffer.len.val < accessIndex i + accessWidth i
      · rw [exec_of_not_inRange hr hwf hb] at h
        cases h
        exact .inr (.inl ⟨hr, .inr rfl⟩)
      · exact .inr (.inr ⟨hr, hwf, Nat.not_lt.mp hb⟩)
  · rw [exec_of_halted ((halted_eq_true_iff s).mpr hr)] at h
    cases h
    exact .inl ⟨rfl, hr⟩

/-- What is left when a legal command only answers. -/
theorem exec_eq_next_cases_of_answers (h : exec i s = .next t)
    (hans : s.running → legalIn s.buffer.len.val i → ∃ r, exec i s = .next (s.answered r)) :
    t = s ∨ s.running ∧ (t = s.faulted .illegalWidth ∨ t = s.faulted .boundsViolation) ∨ ∃ r, t = s.answered r := by
  rcases exec_eq_next_cases h with ⟨hs, -⟩ | hf | ⟨hr, hl⟩
  · exact .inl hs
  · exact .inr (.inl hf)
  · obtain ⟨r, hexec⟩ := hans hr hl
    rw [hexec] at h
    cases h
    exact .inr (.inr ⟨r, rfl⟩)

/-- A read ends in the state it started in, with a fault, or with an answer. -/
theorem exec_read_cases {idx : BitIndex} {w : WidthField} {v : Value}
    (h : exec (.bext idx w v) s = .next t ∨ exec (.btst idx w v) s = .next t) :
    t = s ∨ s.running ∧ (t = s.faulted .illegalWidth ∨ t = s.faulted .boundsViolation) ∨ ∃ r, t = s.answered r := by
  rcases h with h | h
  · exact exec_eq_next_cases_of_answers h fun hr hl =>
      ⟨_, exec_bext_of_inRange v hr (of_decide_eq_true hl.1) hl.2⟩
  · exact exec_eq_next_cases_of_answers h fun hr hl =>
      ⟨_, exec_btst_of_inRange v hr (of_decide_eq_true hl.1) hl.2⟩

theorem buffer_inputs_of_faulted {c c' : FaultCause} (h : t = s.faulted c ∨ t = s.faulted c') :
    t.buffer = s.buffer ∧ t.inputs = s.inputs := by
  rcases h with rfl | rfl <;> exact ⟨rfl, rfl⟩

/-- Settles O30: neither a fault nor an answer touches the buffer or the host's moves, and only a fault writes FCAUSE. -/
theorem readCommandFrame : Obligations.ReadCommandFrame := by
  intro s t idx w v h
  rcases exec_read_cases h with rfl | ⟨hr, hf⟩ | ⟨r, rfl⟩
  · exact ⟨rfl, fun _ => rfl, rfl, .inl rfl⟩
  · obtain ⟨hb, hin⟩ := buffer_inputs_of_faulted hf
    exact ⟨hb, fun a => by rw [hb], hin, .inr ⟨hr, hf⟩⟩
  · exact ⟨rfl, fun _ => rfl, rfl, .inl rfl⟩

theorem accessWidth_pos (hwf : i.wellFormed = true) : 1 ≤ accessWidth i := by
  cases i with
  | bext | bins => exact (of_decide_eq_true hwf).1
  | btst | bset => exact le_refl 1

theorem bitWrite_of_outside (bit : Nat → Bool) {j : Nat}
    (hj : j < accessIndex i ∨ accessIndex i + accessWidth i ≤ j) : bitWrite i bit j = bit j := by
  cases i with
  | bext | btst => rfl
  | bins => exact if_neg (by simp only [accessIndex, accessWidth] at hj; omega)
  | bset => exact if_neg (by simp only [accessIndex, accessWidth] at hj; omega)

/-- Settles O31: a legal write is the write on the array of bits, which changes the range only; otherwise the state is
what it was, or a fault's. -/
theorem writeCommandFrame : Obligations.WriteCommandFrame := by
  intro s t i idx w v hI hi h
  have hidx : idx.toNat = accessIndex i := by rcases hi with rfl | rfl <;> rfl
  rw [hidx]
  rcases exec_eq_next_cases h with ⟨rfl, -⟩ | ⟨hr, hf⟩ | ⟨hr, hl⟩
  · exact ⟨rfl, rfl, fun _ _ => rfl, fun _ _ => rfl, .inl rfl, fun _ => rfl⟩
  · obtain ⟨hb, hin⟩ := buffer_inputs_of_faulted hf
    exact ⟨by rw [hb], hin, fun _ _ => by rw [hb], fun _ _ => by rw [hb], .inr ⟨hr, hf⟩, fun _ => hb⟩
  · obtain ⟨B, hexec, hlen, -, hbits⟩ := exec_simulates hI hr hl
    rw [hexec] at h
    cases h
    have hbit (j : Nat) (hj : j < accessIndex i ∨ accessIndex i + accessWidth i ≤ j) :
        B.bitAt j = s.buffer.bitAt j := by rw [hbits, bitWrite_of_outside _ hj]
    have hpos := accessWidth_pos hl.1
    exact ⟨hlen, rfl, fun a ha => Buffer.byteAt_eq_of_bits fun j hj => hbit j (by omega), hbit, .inl rfl,
      fun hf => absurd hr hf⟩

end Sys2Proof.Machine
end

section
/-! What the host sees of a unit, and what it checks before there is one (R8, R48, R49, R77, R78). -/

namespace Sys2Proof.Machine

variable (s : State)

theorem viewByte_of_lt {a : Nat} (h : a < s.buffer.len.val) : s.viewByte a = some (s.buffer.byteAt a) := if_pos h

theorem viewByte_of_ge {a : Nat} (h : s.buffer.len.val ≤ a) : s.viewByte a = none := if_neg (Nat.not_lt.mpr h)

theorem length_bufferView : s.bufferView.length = s.buffer.len.val := by
  rw [State.bufferView, List.length_map, List.length_range]

theorem getElem?_bufferView (a : Nat) : s.bufferView[a]? = s.viewByte a := by
  by_cases h : a < s.buffer.len.val
  · rw [viewByte_of_lt s h, State.bufferView, List.getElem?_map, List.getElem?_range h, Option.map_some]
  · rw [viewByte_of_ge s (Nat.not_lt.mp h), List.getElem?_eq_none_iff, length_bufferView]
    exact Nat.not_lt.mp h

/-- Settles O46: the view of the buffer is the view of its addresses below `L`, in order. -/
theorem hostViewsTheBuffer : Obligations.HostViewsTheBuffer := fun s =>
  ⟨length_bufferView s, rfl, getElem?_bufferView s, fun _ => viewByte_of_lt s, fun _ => viewByte_of_ge s⟩

theorem validateTotalMultipleOf8_eq_ok_iff (n : Nat) : validateTotalMultipleOf8 n = .ok ↔ n % 8 = 0 := by
  unfold validateTotalMultipleOf8
  split <;> simp_all

theorem validateTotalMultipleOf8_eq_err_iff (n : Nat) : validateTotalMultipleOf8 n = .err ↔ n % 8 ≠ 0 := by
  unfold validateTotalMultipleOf8
  split <;> simp_all

theorem validateDiscriminantRange_eq_ok_iff (d w : Nat) : validateDiscriminantRange d w = .ok ↔ d < 2 ^ w := by
  unfold validateDiscriminantRange
  split <;> simp_all

theorem validateDiscriminantRange_eq_err_iff (d w : Nat) : validateDiscriminantRange d w = .err ↔ 2 ^ w ≤ d := by
  unfold validateDiscriminantRange
  split <;> simp_all

/-- A unit is instantiated exactly when the total is whole bytes and no more than R4 allows; it is then reset (R74). -/
theorem newZeroed_eq_ok_iff {n : Nat} {s : State} :
    newZeroed n = .ok s ↔ n % 8 = 0 ∧ ∃ h : n / 8 < 2 ^ 29 + 1, s = State.zeroed ⟨n / 8, h⟩ := by
  unfold newZeroed
  split
  · rename_i herr
    have h8 := (validateTotalMultipleOf8_eq_err_iff n).mp herr
    exact ⟨fun h => (by cases h), fun ⟨h, _⟩ => absurd h h8⟩
  · rename_i hok
    have h8 := (validateTotalMultipleOf8_eq_ok_iff n).mp hok
    split
    · rename_i hlen
      exact ⟨fun h => ⟨h8, hlen, (Except.ok.inj h).symm⟩, fun ⟨_, _, hs⟩ => congrArg Except.ok hs.symm⟩
    · rename_i hlen
      exact ⟨fun h => (by cases h), fun ⟨_, h, _⟩ => absurd h hlen⟩

/-- Settles O48: each primitive answers by its formula, and a bad total is refused before any unit exists. -/
theorem validationPrimitives : Obligations.ValidationPrimitives := by
  refine ⟨validateTotalMultipleOf8_eq_ok_iff, validateTotalMultipleOf8_eq_err_iff, validateDiscriminantRange_eq_ok_iff,
    validateDiscriminantRange_eq_err_iff, fun n hn => ?_⟩
  cases h : newZeroed n with
  | error e => exact ⟨e, rfl⟩
  | ok s => exact absurd (newZeroed_eq_ok_iff.mp h).1 hn

theorem assemble_bext (idx : BitIndex) (w : WidthField) :
    (Asm.bext idx.toNat w.toNat).assemble = some (.bext idx w 0#128) := by
  simp only [Asm.assemble, Asm.expand, if_pos (And.intro idx.isLt w.isLt), BitVec.ofNat_toNat, BitVec.setWidth_eq]

theorem assemble_bins (idx : BitIndex) (w : WidthField) (v : Value) :
    (Asm.bins idx.toNat w.toNat v.toNat).assemble = some (.bins idx w v) := by
  simp only [Asm.assemble, Asm.expand, if_pos (And.intro idx.isLt (And.intro w.isLt v.isLt)), BitVec.ofNat_toNat,
    BitVec.setWidth_eq]

theorem assemble_btst (idx : BitIndex) : (Asm.btst idx.toNat).assemble = some (.btst idx 1#8 0#128) := by
  simp only [Asm.assemble, Asm.expand, if_pos idx.isLt, BitVec.ofNat_toNat, BitVec.setWidth_eq]

theorem assemble_bset (idx : BitIndex) (b : Bool) :
    (Asm.bset idx.toNat b.toNat).assemble = some (.bset idx 1#8 (truthResult b)) := by
  have hvalue : BitVec.ofNat 128 b.toNat = truthResult b := by cases b <;> rfl
  simp only [Asm.assemble, Asm.expand, if_pos (And.intro idx.isLt b.toNat_lt), hvalue, BitVec.ofNat_toNat,
    BitVec.setWidth_eq]

/-- Settles O58: operands that are their fields' numbers fit, and a pseudo-command is assembled after its expansion. -/
theorem assembledLines : Obligations.AssembledLines := fun idx w v b =>
  ⟨assemble_bext idx w, assemble_bins idx w v, assemble_btst idx, assemble_bset idx b, rfl, rfl, rfl, rfl, rfl, rfl⟩

end Sys2Proof.Machine
end

section
/-! The placement of fields, and the layouts that boot (R79, R110). -/

namespace Sys2Proof.Machine

variable {widths : List Nat} {k : Nat}

theorem length_offsetsFrom (start : Nat) (widths : List Nat) : (offsetsFrom start widths).length = widths.length := by
  induction widths generalizing start with
  | nil => rfl
  | cons w ws ih => exact congrArg (· + 1) (ih (start + w))

theorem length_offsets (widths : List Nat) : (offsets widths).length = widths.length := length_offsetsFrom 0 widths

theorem getElem?_offsetsFrom (start : Nat) (widths : List Nat) (k : Nat) :
    (offsetsFrom start widths)[k]? = widths[k]?.map fun _ => start + (widths.take k).sum := by
  induction widths generalizing start k with
  | nil => rfl
  | cons w ws ih =>
    cases k with
    | zero => rfl
    | succ k =>
      rw [offsetsFrom, List.getElem?_cons_succ, List.getElem?_cons_succ, ih, List.take_succ_cons, List.sum_cons,
        Nat.add_assoc]

/-- A field starts at the sum of the widths before it (R79). -/
theorem getElem?_offsets (widths : List Nat) (k : Nat) :
    (offsets widths)[k]? = widths[k]?.map fun _ => (widths.take k).sum := by
  rw [offsets, getElem?_offsetsFrom]
  simp

theorem eq_sum_take_of_getElem?_offsets {o : Nat} (h : (offsets widths)[k]? = some o) : o = (widths.take k).sum := by
  rw [getElem?_offsets, Option.map_eq_some_iff] at h
  obtain ⟨w, -, rfl⟩ := h
  rfl

theorem getElem?_placements {p : Nat × Nat} :
    (placements widths)[k]? = some p ↔ p.1 = (widths.take k).sum ∧ widths[k]? = some p.2 := by
  rw [placements, List.getElem?_zip_eq_some, getElem?_offsets, Option.map_eq_some_iff]
  constructor
  · rintro ⟨⟨w, -, hp⟩, hw⟩
    exact ⟨hp.symm, hw⟩
  · rintro ⟨hp, hw⟩
    exact ⟨⟨_, hw, hp.symm⟩, hw⟩

theorem sum_take_succ {w : Nat} (h : widths[k]? = some w) : (widths.take (k + 1)).sum = (widths.take k).sum + w := by
  rw [List.take_add_one, h, List.sum_append]
  simp

theorem totalBits_eq_sum (widths : List Nat) : totalBits widths = widths.sum := by
  induction widths with
  | nil => rfl
  | cons w ws ih => rw [totalBits, ih, List.sum_cons]

/-- The end of a field is at most the start of any later one, and at most the total (R79). -/
theorem sum_take_add_le {j w : Nat} (hjk : j < k) (h : widths[j]? = some w) :
    (widths.take j).sum + w ≤ (widths.take k).sum :=
  sum_take_succ h ▸ List.monotone_sum_take widths hjk

theorem sum_take_add_le_sum {w : Nat} (h : widths[k]? = some w) : (widths.take k).sum + w ≤ widths.sum := by
  obtain ⟨hk, -⟩ := List.getElem?_eq_some_iff.mp h
  simpa only [List.take_length] using sum_take_add_le hk h

/-- Settles O49: every offset is a sum of first widths, and such sums grow by one width at a time. -/
theorem placementIsContiguous : Obligations.PlacementIsContiguous := by
  refine fun widths => ⟨length_offsets widths, fun k w hw => ⟨?_, getElem?_placements.mpr ⟨rfl, hw⟩⟩,
    fun k w o o' hw ho ho' => ?_, fun j k w o o' hjk hw ho ho' => ?_, totalBits_eq_sum widths⟩
  · rw [getElem?_offsets, hw, Option.map_some]
  · rw [eq_sum_take_of_getElem?_offsets ho, eq_sum_take_of_getElem?_offsets ho', sum_take_succ hw]
  · rw [eq_sum_take_of_getElem?_offsets ho, eq_sum_take_of_getElem?_offsets ho']
    exact sum_take_add_le hjk hw

theorem length_placements (widths : List Nat) : (placements widths).length = widths.length := by
  rw [placements, List.length_zip, length_offsets, Nat.min_self]

theorem mem_placements {p : Nat × Nat} (h : p ∈ placements widths) : p.2 ∈ widths ∧ p.1 + p.2 ≤ widths.sum := by
  obtain ⟨k, hk⟩ := List.mem_iff_getElem?.mp h
  obtain ⟨hp, hw⟩ := getElem?_placements.mp hk
  exact ⟨List.mem_of_getElem? hw, hp ▸ sum_take_add_le_sum hw⟩

variable {σ : Type} {fields : List (FieldDeclaration σ)} {s : State} {ps : List (Nat × Nat)}

/-- What R110 checks, and what it builds when the checks pass. -/
theorem boot_eq_ok_iff :
    boot fields = .ok (s, ps) ↔
      (∀ d ∈ fields, 1 ≤ declaredWidth d ∧ declaredWidth d ≤ 128) ∧ (∀ p, .symbol p ∈ fields → p.validate = .ok ()) ∧
        newZeroed (fields.map declaredWidth).sum = .ok s ∧ ps = placements (fields.map declaredWidth) := by
  unfold boot
  constructor
  · intro h
    split at h
    · rename_i hw
      cases ht : fieldTypes fields with
      | error e => simp [ht] at h
      | ok types =>
        obtain ⟨hwidths, hv⟩ := fieldTypes_ok ht
        rw [← totalBits_eq_sum, ← hwidths]
        cases hn : newZeroed (totalBits (types.map fun t => (fieldWidth t).val)) with
        | error e => simp [ht, hn] at h
        | ok u =>
          simp only [ht, hn, Except.ok.injEq, Prod.mk.injEq] at h
          exact ⟨by simpa using hw, hv, congrArg _ h.1, h.2.symm⟩
    · cases h
  · rintro ⟨hw, hv, hn, rfl⟩
    obtain ⟨types, ht⟩ := fieldTypes_exists hw hv
    rw [← totalBits_eq_sum] at hn
    rw [if_pos (by simpa using hw)]
    simp only [ht, (fieldTypes_ok ht).1, hn]

/-- Settles O51: the checks of the boot order are the three conditions, and the unit is the zeroed one of their total. -/
theorem bootedUnitHoldsItsFields : Obligations.BootedUnitHoldsItsFields := by
  rintro σ fields _ rfl
  have hwidths : (∀ w ∈ fields.map declaredWidth, 1 ≤ w ∧ w ≤ 128) ↔
      ∀ d ∈ fields, 1 ≤ declaredWidth d ∧ declaredWidth d ≤ 128 := List.forall_mem_map
  refine ⟨fun s ps h => ?_, ?_⟩
  · obtain ⟨hw, -, hn, rfl⟩ := boot_eq_ok_iff.mp h
    obtain ⟨h8, hlen, rfl⟩ := newZeroed_eq_ok_iff.mp hn
    have htotal : 8 * ((fields.map declaredWidth).sum / 8) = (fields.map declaredWidth).sum := by omega
    refine ⟨htotal, zeroed_byteAt _, rfl, zeroed_inv _, rfl, ?_, fun q hq => ?_⟩
    · rw [length_placements, List.length_map]
    · obtain ⟨hmem, hend⟩ := mem_placements hq
      obtain ⟨h1, h128⟩ := hwidths.mpr hw _ hmem
      exact ⟨h1, h128, hend.trans htotal.ge⟩
  · rw [hwidths]
    constructor
    · rintro ⟨s, ps, h⟩
      obtain ⟨hw, hv, hn, -⟩ := boot_eq_ok_iff.mp h
      obtain ⟨h8, hlen, -⟩ := newZeroed_eq_ok_iff.mp hn
      exact ⟨hw, hv, h8, by omega⟩
    · rintro ⟨hw, hv, h8, hmax⟩
      exact ⟨_, _, boot_eq_ok_iff.mpr ⟨hw, hv, newZeroed_eq_ok_iff.mpr ⟨h8, by omega, rfl⟩, rfl⟩⟩

end Sys2Proof.Machine
end

section
/-! Writing every field of a layout (R72, R79, R80). -/

namespace Sys2Proof.Machine

/-- The commands that write the fields of a layout that begins at bit index `start`. -/
def layoutCommands (start : Nat) : List (WidthField × Value) → List Instr
  | [] => []
  | f :: fs => .bins (BitVec.ofNat 32 start) f.1 f.2 :: layoutCommands (start + f.1.toNat) fs

/-- The bits of a layout, from its first on, once every field holds its value. -/
def layoutBits : List (WidthField × Value) → Nat → Bool
  | [], _ => false
  | f :: fs, j => if j < f.1.toNat then f.2.getLsbD j else layoutBits fs (j - f.1.toNat)

variable {fields : List (WidthField × Value)} {start L : Nat}

theorem layoutWrites_eq_map_encode (fields : List (WidthField × Value)) :
    layoutWrites fields = (layoutCommands 0 fields).map encode := by
  suffices h : ∀ start, List.zipWith (fun o f => encode (.bins (BitVec.ofNat 32 o) f.1 f.2))
      (offsetsFrom start (fields.map fun f => f.1.toNat)) fields = (layoutCommands start fields).map encode from h 0
  induction fields with
  | nil => exact fun _ => rfl
  | cons f fs ih => exact fun start => congrArg (List.cons _) (ih (start + f.1.toNat))

theorem layoutCommands_legalIn (hw : ∀ f ∈ fields, 1 ≤ f.1.toNat ∧ f.1.toNat ≤ 128)
    (hb : start + totalBits (fields.map fun f => f.1.toNat) ≤ 8 * L) :
    ∀ i ∈ layoutCommands start fields, legalIn L i := by
  induction fields generalizing start with
  | nil => exact fun _ hi => absurd hi List.not_mem_nil
  | cons f fs ih =>
    obtain ⟨⟨h1, h128⟩, hws⟩ := List.forall_mem_cons.mp hw
    rw [List.map_cons, totalBits] at hb
    have hidx : (BitVec.ofNat 32 start).toNat ≤ start := (BitVec.toNat_ofNat ..).trans_le (Nat.mod_le ..)
    exact List.forall_mem_cons.mpr ⟨legalIn_bins f.2 h1 h128 (by omega), ih hws (by omega)⟩

/-- On the array, the writes leave the layout's bits in its place and no other bit changed. -/
theorem bitRun_layoutCommands (bit : Nat → Bool) (j : Nat) (hw : ∀ f ∈ fields, 1 ≤ f.1.toNat ∧ f.1.toNat ≤ 128)
    (hb : start + totalBits (fields.map fun f => f.1.toNat) ≤ 2 ^ 32) :
    (bitRun (layoutCommands start fields) bit).1 j =
      if start ≤ j ∧ j < start + totalBits (fields.map fun f => f.1.toNat) then layoutBits fields (j - start)
      else bit j := by
  induction fields generalizing start bit with
  | nil => exact (if_neg (by simp only [List.map_nil, totalBits]; omega)).symm
  | cons f fs ih =>
    obtain ⟨⟨h1, -⟩, hws⟩ := List.forall_mem_cons.mp hw
    rw [List.map_cons, totalBits] at hb ⊢
    have hidx : (BitVec.ofNat 32 start).toNat = start :=
      (BitVec.toNat_ofNat ..).trans (Nat.mod_eq_of_lt (by omega))
    rw [layoutCommands, bitRun]
    simp only [ih _ hws (show start + f.1.toNat + _ ≤ 2 ^ 32 by omega), bitWrite_bins, hidx, layoutBits]
    by_cases hj : start ≤ j ∧ j < start + f.1.toNat
    · rw [if_neg (by omega), if_pos hj, if_pos (by omega), if_pos (by omega)]
    · rw [if_neg hj, Nat.sub_add_eq]
      by_cases hlater : start + f.1.toNat ≤ j ∧ j < start + f.1.toNat + totalBits (fs.map fun f => f.1.toNat)
      · rw [if_pos hlater, if_pos (by omega), if_neg (by omega)]
      · rw [if_neg hlater, if_neg (by omega)]

/-- Where a field of the layout starts, the layout's bits are the field's value. -/
theorem layoutBits_field {k m : Nat} {f : WidthField × Value} (hf : fields[k]? = some f) (hm : m < f.1.toNat) :
    layoutBits fields (((fields.map fun f => f.1.toNat).take k).sum + m) = f.2.getLsbD m := by
  induction fields generalizing k with
  | nil => cases hf
  | cons g gs ih =>
    cases k with
    | zero =>
      cases hf
      rw [List.take_zero, List.sum_nil, Nat.zero_add, layoutBits, if_pos hm]
    | succ k =>
      rw [List.map_cons, List.take_succ_cons, List.sum_cons, layoutBits, if_neg (by omega), Nat.add_assoc,
        Nat.add_sub_cancel_left]
      exact ih hf

/-- The writes of a layout that the buffer holds, as a run on the array of bits. -/
theorem runWords_layoutWrites {s : State} (hI : s.Inv) (hr : s.running)
    (hw : ∀ f ∈ fields, 1 ≤ f.1.toNat ∧ f.1.toNat ≤ 128)
    (hb : totalBits (fields.map fun f => f.1.toNat) ≤ 8 * s.buffer.len.val) :
    ∃ t, runWords (layoutWrites fields) s = .next t ∧ RunsAs (layoutCommands 0 fields) s t ∧
      ∀ j, t.buffer.bitAt j =
        if j < totalBits (fields.map fun f => f.1.toNat) then layoutBits fields j else s.buffer.bitAt j := by
  obtain ⟨t, hrun, ht⟩ := runWords_runsAs hI hr (layoutCommands_legalIn hw (start := 0) (by omega))
  refine ⟨t, layoutWrites_eq_map_encode fields ▸ hrun, ht, fun j => ?_⟩
  have hlen := s.buffer.len.isLt
  rw [ht.bits, bitRun_layoutCommands _ j hw (by omega)]
  simp only [Nat.zero_le, true_and, Nat.zero_add, Nat.sub_zero]

/-- Settles O52: the bits of the buffer are the layout's, and a field's are its value's. -/
theorem layoutFieldsReadBack : Obligations.LayoutFieldsReadBack := by
  intro s fields hI hr hw hb
  obtain ⟨t, hrun, ht, hbits⟩ := runWords_layoutWrites hI hr hw hb
  refine ⟨t, hrun, ht.fcause.trans hr, fun k o f hf ho => ?_⟩
  have hwidth : (fields.map fun f => f.1.toNat)[k]? = some f.1.toNat := by rw [List.getElem?_map, hf, Option.map_some]
  have hend := sum_take_add_le_sum hwidth
  rw [← totalBits_eq_sum (fields.map _), ← eq_sum_take_of_getElem?_offsets ho] at hend
  apply Nat.eq_of_testBit_eq
  intro m
  rw [testBit_bitsValue, Nat.testBit_mod_two_pow, BitVec.testBit_toNat]
  by_cases hm : m < f.1.toNat
  · rw [hbits, if_pos (by omega), eq_sum_take_of_getElem?_offsets ho, layoutBits_field hf hm]
  · rw [decide_eq_false hm, Bool.false_and, Bool.false_and]

/-- Past the last bit of a canonical buffer nothing is listed (R29). -/
theorem bitAt_of_ge {B : Buffer} (hB : B.wf = true) {j : Nat} (hj : 8 * B.len.val ≤ j) : B.bitAt j = false := by
  rw [Buffer.bitAt, Buffer.byteAt, Memory.read_of_ge hB (by omega)]
  exact Nat.zero_testBit _

/-- Settles O53: every bit of either buffer is the layout's, and past the buffers' end there are none. -/
theorem fieldValuesFixTheBuffer : Obligations.FieldValuesFixTheBuffer := by
  intro s s' fields hI hI' hr hr' hlen hw hb
  obtain ⟨t, hrun, ht, hbits⟩ := runWords_layoutWrites hI hr hw hb.le
  obtain ⟨t', hrun', ht', hbits'⟩ := runWords_layoutWrites hI' hr' hw (hlen ▸ hb.le)
  refine ⟨t, t', hrun, hrun', Buffer.ext_of_bits ht.wf ht'.wf (ht.len.trans (hlen.trans ht'.len.symm)) fun j => ?_⟩
  rw [hbits, hbits', hb]
  split
  · rfl
  · rename_i hj
    have hend := Nat.not_lt.mp hj
    rw [bitAt_of_ge hI.1 hend, bitAt_of_ge hI'.1 (hlen ▸ hend)]

end Sys2Proof.Machine
end

section
/-! The tables of symbol specifiers: what validation says of them, and the two lookups (R84, R90, R92). -/

namespace Sys2Proof.Machine

variable {σ : Type} {p : SymbolSpecifier σ} {table : List (σ × Nat)} {d : Nat} {x : σ}

theorem nodup_of_distinctNats {ds : List Nat} (h : distinctNats ds = true) : ds.Nodup := by
  induction ds with
  | nil => exact List.nodup_nil
  | cons d ds ih =>
    simp only [distinctNats, Bool.and_eq_true, Bool.not_eq_true', List.contains_eq_mem, decide_eq_false_iff_not] at h
    exact List.nodup_cons.mpr ⟨h.1, ih h.2⟩

theorem lt_of_firstOutOfRange_eq_none {width : Nat} (h : firstOutOfRange width table = none) :
    ∀ e ∈ table, e.2 < 2 ^ width := by
  induction table with
  | nil => exact fun _ he => absurd he List.not_mem_nil
  | cons e es ih =>
    rw [firstOutOfRange] at h
    split at h
    · cases h
    · rename_i hok
      exact List.forall_mem_cons.mpr ⟨(validateDiscriminantRange_eq_ok_iff ..).mp hok, ih h⟩

/-- What validation finds of a specifier's table (R90, R92); of its width, `SymbolSpecifier.width_of_validate`. -/
theorem SymbolSpecifier.table_of_validate (h : p.validate = .ok ()) :
    (p.kind = .exhaustive → 2 ^ p.width = p.table.length) ∧ (∀ e ∈ p.table, e.2 < 2 ^ p.width) ∧
      (p.table.map Prod.snd).Nodup := by
  unfold SymbolSpecifier.validate at h
  split at h
  · cases h
  · rename_i hcount
    split at h
    · cases h
    · split at h
      · cases h
      · rename_i hrange
        split at h
        · rename_i hdistinct
          refine ⟨fun hk => ?_, lt_of_firstOutOfRange_eq_none hrange, nodup_of_distinctNats hdistinct⟩
          have hpow : powerOfTwo p.table.length = true := by simpa [hk] using hcount
          simpa [SymbolSpecifier.width, hk, powerOfTwo] using hpow
        · cases h

theorem mem_of_symbolOf_eq_some (h : symbolOf d table = some x) : (x, d) ∈ table := by
  induction table with
  | nil => cases h
  | cons e es ih =>
    rw [symbolOf] at h
    split at h
    · rename_i he
      cases h
      exact he ▸ List.mem_cons_self
    · exact List.mem_cons_of_mem _ (ih h)

theorem not_mem_of_symbolOf_eq_none (h : symbolOf d table = none) (x : σ) : (x, d) ∉ table := by
  induction table with
  | nil => exact List.not_mem_nil
  | cons e es ih =>
    rw [symbolOf] at h
    split at h
    · cases h
    · rename_i he
      rintro (_ | hmem)
      · exact he rfl
      · exact ih h (by assumption)

/-- In a table without a repeated discriminant the lookup finds the one symbol bound to it. -/
theorem symbolOf_of_mem (hn : (table.map Prod.snd).Nodup) (h : (x, d) ∈ table) : symbolOf d table = some x := by
  cases hy : symbolOf d table with
  | none => exact absurd h (not_mem_of_symbolOf_eq_none hy x)
  | some y =>
    have heq : (y, d) = (x, d) := List.inj_on_of_nodup_map hn (mem_of_symbolOf_eq_some hy) h rfl
    cases heq
    rfl

theorem discriminantOf_of_mem [DecidableEq σ] (h : x ∈ table.map Prod.fst) :
    ∃ d, discriminantOf x table = some d ∧ (x, d) ∈ table := by
  induction table with
  | nil => cases h
  | cons e es ih =>
    rw [discriminantOf]
    split
    · rename_i he
      exact ⟨_, rfl, he ▸ List.mem_cons_self⟩
    · rename_i he
      obtain rfl | h := List.mem_cons.mp h
      · exact absurd rfl he
      · obtain ⟨d, hd, hmem⟩ := ih h
        exact ⟨d, hd, List.mem_cons_of_mem _ hmem⟩

/-- An exhaustive table has as many discriminants as there are patterns, all of them patterns and no two alike, so it
binds every pattern (R87). -/
theorem exists_symbolOf_of_exhaustive (hk : p.kind = .exhaustive) (hv : p.validate = .ok ()) (hd : d < 2 ^ p.width) :
    ∃ x, symbolOf d p.table = some x := by
  obtain ⟨hcount, hrange, hnodup⟩ := SymbolSpecifier.table_of_validate hv
  have hsub : p.table.map Prod.snd ⊆ List.range (2 ^ p.width) := by
    intro d hd
    obtain ⟨e, he, rfl⟩ := List.mem_map.mp hd
    exact List.mem_range.mpr (hrange e he)
  have hperm := (List.subperm_of_subset hnodup hsub).perm_of_length_le (by simp [hcount hk])
  obtain ⟨⟨x, _⟩, he, rfl⟩ := List.mem_map.mp (hperm.mem_iff.mpr (List.mem_range.mpr hd))
  exact ⟨x, symbolOf_of_mem hnodup he⟩

end Sys2Proof.Machine
end

section
/-! The symbol layer over the unit: encode and the two decodes (R87, R88, R89). -/

namespace Sys2Proof.Machine

variable {s t : State} {i : Instr} {idx : BitIndex} {σ : Type} {p : SymbolSpecifier σ} {x : σ}

/-- A call of a running unit takes the one response its command gives. -/
theorem callUnit_of_exec {r : Response} (hr : s.running) (hexec : exec i s = .next t)
    (hresponses : t.responses = s.responses ++ [r]) : callUnit i s = { response := some r, outcome := .next t } := by
  have hpresent : presentCommand (encode i) s = .next t := by
    simp [presentCommand, (halted_eq_false_iff s).mpr hr, decode_encode, hexec]
  simp [callUnit, hpresent, hresponses]

theorem widthAsOperand_toNat {w : Nat} (h : w ≤ 128) : (widthAsOperand w).toNat = w := by
  rw [widthAsOperand, if_pos (by omega), BitVec.toNat_ofNat, Nat.mod_eq_of_lt (by omega)]

theorem getField_of_inRange {w : Nat} (hr : s.running) (hw : 1 ≤ w ∧ w ≤ 128) (hb : s.inRange idx.toNat w) :
    getField idx (widthAsOperand w) s =
      { response := some { status := statusOk, result := BitVec.ofNat 128 (fieldValue s.buffer idx.toNat w) }
        outcome := .next (s.answered (BitVec.ofNat 128 (fieldValue s.buffer idx.toNat w))) } := by
  have hexec := exec_bext_of_inRange (w := widthAsOperand w) 0#128 hr (by rwa [widthAsOperand_toNat hw.2])
    (by rwa [widthAsOperand_toNat hw.2])
  rw [widthAsOperand_toNat hw.2] at hexec
  exact callUnit_of_exec hr hexec (answered_responses _ _)

section
variable (hv : p.validate = .ok ()) (hr : s.running) (hb : s.inRange idx.toNat p.width)
include hv hr hb

theorem decodeExhaustive_of_bound (hx : symbolOf (fieldValue s.buffer idx.toNat p.width) p.table = some x) :
    decodeExhaustive idx p s =
      (.symbol x, .next (s.answered (BitVec.ofNat 128 (fieldValue s.buffer idx.toNat p.width)))) := by
  have hw := SymbolSpecifier.width_of_validate hv
  simp only [decodeExhaustive, getField_of_inRange hr hw hb, answerOf, if_pos, numberResult_fieldValue_toNat _ _ hw.2,
    hx]

theorem decodeOpen_of_bound (hx : symbolOf (fieldValue s.buffer idx.toNat p.width) p.table = some x) :
    decodeOpen idx p s =
      (.symbol x, .next (s.answered (BitVec.ofNat 128 (fieldValue s.buffer idx.toNat p.width)))) := by
  have hw := SymbolSpecifier.width_of_validate hv
  simp only [decodeOpen, getField_of_inRange hr hw hb, answerOf, if_pos, numberResult_fieldValue_toNat _ _ hw.2, hx]

theorem decodeOpen_of_unbound (hx : symbolOf (fieldValue s.buffer idx.toNat p.width) p.table = none) :
    decodeOpen idx p s =
      (.unrecognized { width := p.width, raw := fieldValue s.buffer idx.toNat p.width },
        .next (s.answered (BitVec.ofNat 128 (fieldValue s.buffer idx.toNat p.width)))) := by
  have hw := SymbolSpecifier.width_of_validate hv
  simp only [decodeOpen, getField_of_inRange hr hw hb, answerOf, if_pos, numberResult_fieldValue_toNat _ _ hw.2, hx]

end

/-- Settles O54: an exhaustive table binds the value read, which is below `2^w`. -/
theorem exhaustiveDecodeNeverFails : Obligations.ExhaustiveDecodeNeverFails := by
  intro σ p s idx hk hv hr hb
  obtain ⟨x, hx⟩ := exists_symbolOf_of_exhaustive hk hv (bitsValue_lt s.buffer.bitAt idx.toNat p.width)
  exact ⟨x, _, decodeExhaustive_of_bound hv hr hb hx, mem_of_symbolOf_eq_some hx, rfl, hr⟩

/-- Settles O55: the value read is bound in the table or it is not. -/
theorem openDecodeIsTotal : Obligations.OpenDecodeIsTotal := by
  rintro σ p s idx _ hv hr hb rfl
  cases hx : symbolOf (fieldValue s.buffer idx.toNat p.width) p.table with
  | some x => exact ⟨s.answered _, rfl, .inl ⟨x, mem_of_symbolOf_eq_some hx, decodeOpen_of_bound hv hr hb hx⟩⟩
  | none => exact ⟨s.answered _, rfl, .inr ⟨not_mem_of_symbolOf_eq_none hx, decodeOpen_of_unbound hv hr hb hx⟩⟩

/-- A call that writes a value which fits its range: the range then holds it. -/
theorem setField_of_inRange {w d : Nat} (hI : s.Inv) (hr : s.running) (hw : 1 ≤ w ∧ w ≤ 128)
    (hb : s.inRange idx.toNat w) (hd : d < 2 ^ w) :
    ∃ t, (setField idx (widthAsOperand w) (BitVec.ofNat 128 d) s).outcome = .next t ∧ t.running ∧
      t.buffer.len = s.buffer.len ∧ fieldValue t.buffer idx.toNat w = d := by
  have hop := widthAsOperand_toNat hw.2
  obtain ⟨B, hexec, hlen, -, hbits⟩ := exec_simulates hI hr (legalIn_bins (w := widthAsOperand w) (BitVec.ofNat 128 d)
    (hw.1.trans_eq hop.symm) (hop.trans_le hw.2) (by rwa [hop]))
  refine ⟨_, congrArg Call.outcome (callUnit_of_exec hr hexec (answered_responses _ _)), hr, hlen, ?_⟩
  have hread := bitsValue_bitWrite_bins idx (widthAsOperand w) (BitVec.ofNat 128 d) s.buffer.bitAt
  have hd128 : d < 2 ^ 128 := hd.trans_le (Nat.pow_le_pow_right (by decide) hw.2)
  rw [hop, BitVec.toNat_ofNat, Nat.mod_eq_of_lt hd128, Nat.mod_eq_of_lt hd, ← hbits] at hread
  exact hread

/-- Settles O56: encode writes a discriminant of the symbol, and the one symbol bound to it is that one. -/
theorem encodedSymbolDecodesToItself : Obligations.EncodedSymbolDecodesToItself := by
  intro σ _ p x s idx hv hx hI hr hb
  obtain ⟨d, hd, hmem⟩ := discriminantOf_of_mem hx
  obtain ⟨-, hrange, hnodup⟩ := SymbolSpecifier.table_of_validate hv
  obtain ⟨t, hcall, ht, hlen, hfield⟩ :=
    setField_of_inRange hI hr (SymbolSpecifier.width_of_validate hv) hb (hrange _ hmem)
  have hsymbol : symbolOf (fieldValue t.buffer idx.toNat p.width) p.table = some x :=
    hfield.symm ▸ symbolOf_of_mem hnodup hmem
  have hbt : t.inRange idx.toNat p.width := by rwa [State.inRange, hlen]
  refine ⟨_, t, congrArg (Option.map _) hd, hcall, ht, ?_, ?_⟩
  · rw [decodeOpen_of_bound hv ht hbt hsymbol]
  · rw [decodeExhaustive_of_bound hv ht hbt hsymbol]

/-- Settles O57: either decode is its BEXT's call, whose one response carries the code of the fault. -/
theorem symbolDecodeFaultsAsBext : Obligations.SymbolDecodeFaultsAsBext := by
  intro σ p s idx hv hr hb
  obtain ⟨h1, h128⟩ := SymbolSpecifier.width_of_validate hv
  have hop := widthAsOperand_toNat h128
  have hexec : exec (.bext idx (widthAsOperand p.width) 0#128) s = .next (s.faulted .boundsViolation) :=
    exec_of_not_inRange hr (decide_eq_true (by rw [hop]; exact ⟨h1, h128⟩))
      (by simpa only [accessIndex, accessWidth, hop])
  have hcall : getField idx (widthAsOperand p.width) s = _ := callUnit_of_exec hr hexec (faulted_responses _ _)
  have hne := FaultCause.boundsViolation.code_ne_ok
  simp only [decodeExhaustive, decodeOpen, hcall, answerOf, if_neg hne]
  exact ⟨rfl, rfl⟩

end Sys2Proof.Machine
end
